-- ==== Sys2Proof/Word.lean ====
section
/-!
DEFINITION. The words of the two ports (R31), the port names, and a request word tagged with the port it arrived on.
-/

namespace Sys2Proof

/-- One byte: a register cell (R4) or a digest byte (R72). -/
abbrev Byte := BitVec 8

/-- A 64-bit operand, hash value or result (R32, R33). -/
abbrev Word64 := BitVec 64

/-- A command word of port S (R32). -/
abbrev CommandWord := BitVec 72

/-- A request word of port H (R37). -/
abbrev AdapterWord := BitVec 113

/-- A response word, on either port (R33). -/
abbrev ResponseWord := BitVec 80

/-- The two ports (R31). -/
inductive Port where
  | S
  | H
  deriving DecidableEq, Repr

/-- A request word and the port it arrived on: the port alone gives the word's length (R42). -/
inductive Request where
  | s (cw : CommandWord)
  | h (hq : AdapterWord)
  deriving DecidableEq, Repr

/-- The port a request word is presented on. -/
def Request.port : Request → Port
  | .s _ => .S
  | .h _ => .H

end Sys2Proof
end

