-- ==== Sys2Proof/Config.lean ====
section
/-!
DEFINITION. The engine's parameters (R105): the constants fixed by DOC0, and the one parameter left open, PRIM (R71).
Nothing here has a free value of its own: PRIM is an argument of the functions that use it, so what is stated about
them holds for every primitive.
-/

namespace Sys2Proof.Config

/-- `P_MIN`, the least precision (R105). -/
def pMin : Nat := 7

/-- `P_MAX`, the largest precision (R105). -/
def pMax : Nat := 18

/-- Width of a hash value in bits (R105). -/
def hashWidth : Nat := 64

/-- The rank of a zero remainder, at every precision (R52, R105). -/
def sentinel : Nat := 64

/-- The alpha numerator constant 0.7213 = 7213/10000 (R7, R64). -/
def alphaNumerator : Nat := 7213

/-- The alpha denominator constant 1.079 = 1079/1000 (R7, R64). -/
def alphaDenominator : Nat := 1079

/-- Number of digest bytes the adapter uses (R72, R105). -/
def digestBytes : Nat := 8

/-- The largest `dlen` the adapter's request word can show: a longer digest is presented with it (R37). -/
def dlenMax : Nat := 65535

/-- The largest value of a signed 64-bit result (R66). -/
def i64Max : Nat := 2 ^ 63 - 1

/-- What a register that no `ADD` has raised reads as: `CONSTRUCT` writes 0 to every cell (R4, R45). -/
def unlistedRegister : Byte := 0

/-- The outcome of one call of the external hash primitive (R71). -/
inductive PrimResult where
  /-- The primitive produced a digest, of any length. -/
  | ok (digest : List Byte)
  /-- The primitive failed, with an opaque token. -/
  | fail (err : BitVec 32)
  deriving DecidableEq, Repr

/-- `PRIM`: a total deterministic function from bytes to an outcome, about which nothing else is assumed (R71, R73). -/
abbrev Prim := List Byte → PrimResult

end Sys2Proof.Config
end

