-- ==== Sys2Proof/Machine/Operands.lean ====
section
/-!
DEFINITION. How operands are read (R35), the constants derived from the precision (R3, R5, R6), and the sub-block
`hash_lz_position_extract` (R50, R51, R52).
-/

namespace Sys2Proof.Machine

/-- `precision = signed(arg)` (R35). -/
def signedPrecision (arg : Word64) : Int := arg.toInt

/-- `m = 2^p` (R3). -/
def registerCount (p : Nat) : Nat := 2 ^ p

/-- `bucketBits = p` (R5). -/
def bucketBits (p : Nat) : Nat := p

/-- `remainderBits = 64 - p` (R6). -/
def remainderBits (p : Nat) : Nat := Config.hashWidth - bucketBits p

/-- The low `remainderBits` bits set (R6). -/
def remainderMask (p : Nat) : Word64 := BitVec.ofNat 64 (2 ^ remainderBits p - 1)

/-- `hashValue >> remainderBits`, a logical shift (R50). -/
def bucketIndex (p : Nat) (hashValue : Word64) : Nat := (hashValue >>> remainderBits p).toNat

/-- `w = hashValue & remainderMask` (R51). -/
def remainder (p : Nat) (hashValue : Word64) : Word64 := hashValue &&& remainderMask p

/-- The zero bits of `w` from bit 0 upward before the first set bit, looking at `fuel` bits. -/
def trailingZeros : Nat → Word64 → Nat
  | 0, _ => 0
  | fuel + 1, w => if w.getLsbD 0 then 0 else trailingZeros fuel (w >>> 1) + 1

/-- `ctz(w)`, meant for `w > 0` (00_scope.md section 5.1). -/
def ctz (w : Word64) : Nat := trailingZeros Config.hashWidth w

/-- The rank of a remainder: a trailing-zero count plus one, or the sentinel (R52). -/
def rho (w : Word64) : Nat := if w = 0 then Config.sentinel else ctz w + 1

/-- The rank that adding a hash value gives at precision `p` (R54). -/
def rankOf (p : Nat) (hashValue : Word64) : Nat := rho (remainder p hashValue)

end Sys2Proof.Machine
end

