-- ==== Sys2Proof/Machine/State.lean ====
section
/-!
DEFINITION. The machine's state as plain data. The architectural state is `sketch` and nothing else (R1); beside it
stand the two response ports (R17, R97) and, as the model's own fields, the outside world: what the host does next and
what it has taken (R101).
-/

namespace Sys2Proof.Machine

/-- The register array (R4, R20): the cells that differ from `Config.unlistedRegister`, as (index, byte) pairs with
rising indexes (`Memory.wf`; log entry 2). -/
abbrev Memory := List Host.Cell

/-- A Sketch in existence (R1): its precision and its registers. The derived constants of R3, R5, R6, R7 are
functions of `p` and are not stored. -/
structure Sketch where
  /-- `p`, 5 bits (R1, R2). -/
  p : BitVec 5
  /-- `x[0 .. m-1]` (R4). -/
  x : Memory
  deriving DecidableEq, Repr

/-- The six values of a response's `status` (R80); no other is ever produced. -/
inductive Status where
  | ok
  | rangeError
  | notConstructed
  | illegalCommand
  | primFailure
  | shortDigest
  deriving DecidableEq, Repr

/-- The three fields of a response word (R33). -/
structure Response where
  status : Status
  info : Byte
  value : Word64
  deriving DecidableEq, Repr

/-- What the outside world can do to the engine (R101). -/
inductive HostEvent where
  /-- Present a request word on its port; it waits there until the port is free (R97). -/
  | present (w : Request)
  /-- Take the response that is pending on a port (R97). -/
  | take (port : Port)
  /-- The reset event, between two commands (R95). -/
  | reset
  /-- Present a request word, and assert reset while the engine executes it: the command is abandoned (R102). -/
  | resetDuring (w : Request)
  deriving DecidableEq, Repr

/-- The whole state. -/
structure State where
  /-- The architectural state: `none` is `valid = 0`, `some` is `valid = 1` with `p` and `x` (R1, R13). -/
  sketch : Option Sketch
  /-- The response pending on port S, if there is one (R17, R97). -/
  respS : Option Response
  /-- The response pending on port H, if there is one (R17, R97). -/
  respH : Option Response
  /-- The model's own: what the host does next, oldest first (R101, R14; log entry 3). -/
  events : List HostEvent
  /-- The model's own: the responses the host has taken, oldest first (R101; log entry 4). -/
  received : List (Port × Response)
  deriving DecidableEq, Repr

/-- The reasons a machine stops with a fault: none. Every command in every state has one response and one next state
(R89), and the spec's errors are responses (R85; log entry 17). Safe: nothing is stopped. -/
inductive Fault where
  deriving DecidableEq, Repr

/-- The reasons an instruction has no meaning. -/
inductive Refusal where
  /-- Raised by a dispatch arm of an instruction that has no meaning yet; no arm raises it. Safe. -/
  | notModelled (mnemonic : String)
  deriving DecidableEq, Repr

/-- Right after reset (R17): no Sketch, no response pending; `p` and `x` hold no value at all. Nothing is presented
and nothing has been taken (log entries 3, 4). -/
def State.reset : State where
  sketch := none
  respS := none
  respH := none
  events := []
  received := []

end Sys2Proof.Machine
end

