-- ==== Sys2Proof/Machine/Ops.lean ====
section
/-!
DEFINITION. The named operations: reading and writing the register array, the sub-block `register_max_array` (R53),
ending a command with a response or with an error (R33, R85), and the response word.
-/

namespace Sys2Proof.Machine

/-- The canonical form, from index `lo` on: indexes rising, no cell that holds the unlisted value. -/
def Memory.wfFrom : Nat → Memory → Bool
  | _, [] => true
  | lo, (a, b) :: rest => decide (lo ≤ a) && decide (b ≠ Config.unlistedRegister) && Memory.wfFrom (a + 1) rest

/-- The canonical form of the register array (log entry 2): equal arrays are equal lists. -/
def Memory.wf (x : Memory) : Bool := Memory.wfFrom 0 x

/-- `x[i]` (R21): one whole cell. -/
def Memory.read : Memory → Nat → Byte
  | [], _ => Config.unlistedRegister
  | (a, b) :: rest, i =>
    if i < a then Config.unlistedRegister else if i = a then b else Memory.read rest i

/-- Put a cell in front of an array, unless it holds the unlisted value. -/
def Memory.list (i : Nat) (v : Byte) (x : Memory) : Memory :=
  if v = Config.unlistedRegister then x else (i, v) :: x

/-- `x[i] <- v` (R21), keeping the canonical form. -/
def Memory.write : Memory → Nat → Byte → Memory
  | [], i, v => Memory.list i v []
  | (a, b) :: rest, i, v =>
    if i < a then Memory.list i v ((a, b) :: rest)
    else if i = a then Memory.list i v rest
    else (a, b) :: Memory.write rest i v

/-- Every register at 0, as `CONSTRUCT` leaves it (R45). -/
def Memory.zeroed : Memory := []

/-- `x[i] <- max(x[i], rank)`: the register is written only when the rank is larger (R53). -/
def Memory.maxUpdate (x : Memory) (i rank : Nat) : Memory :=
  if (x.read i).toNat < rank then x.write i (BitVec.ofNat 8 rank) else x

/-- The precision of a Sketch as a number. -/
def Sketch.precision (sk : Sketch) : Nat := sk.p.toNat

/-- `m` of a Sketch (R3). -/
def Sketch.m (sk : Sketch) : Nat := registerCount sk.precision

/-- `x[i]` of a Sketch. -/
def Sketch.read (sk : Sketch) (i : Nat) : Byte := sk.x.read i

/-- The array as the spec lays it out: exactly `m` cells (R8, R29). -/
def Sketch.registers (sk : Sketch) : List Byte := (List.range sk.m).map sk.read

/-- The Sketch that a successful `CONSTRUCT` of precision `p` creates (R45). -/
def Sketch.fresh (p : Nat) : Sketch := { p := BitVec.ofNat 5 p, x := Memory.zeroed }

/-- What one `ADD` does to a Sketch (R54). -/
def Sketch.record (sk : Sketch) (hashValue : Word64) : Sketch :=
  { sk with x := sk.x.maxUpdate (bucketIndex sk.precision hashValue) (rankOf sk.precision hashValue) }

/-- The code of a status (R80). -/
def Status.code : Status → Byte
  | .ok => 0x00#8
  | .rangeError => 0x01#8
  | .notConstructed => 0x02#8
  | .illegalCommand => 0x03#8
  | .primFailure => 0x10#8
  | .shortDigest => 0x11#8

/-- `{status, info, value}` (R33). -/
def Response.toWord (r : Response) : ResponseWord := r.status.code ++ r.info ++ r.value

/-- What a command leaves: the architectural state after it, and its one response (R25, R31). -/
structure Result where
  sketch : Option Sketch
  response : Response
  deriving DecidableEq, Repr

/-- `respond(OK, info, value)`, with the architectural state the command leaves (00_scope.md section 5.2). -/
def respondOk (sketch : Option Sketch) (info : Byte) (value : Word64) : Result :=
  { sketch := sketch, response := { status := .ok, info := info, value := value } }

/-- `raise status(info, value)`: an error is delivered in the response and nowhere else, and the command writes no
architectural state (R85). There is no return from it: the next command runs as if this one had never been
presented (R87). -/
def raise (before : Option Sketch) (status : Status) (info : Byte) (value : Word64) : Result :=
  { sketch := before, response := { status := status, info := info, value := value } }

/-- The response pending on a port. -/
def State.resp (s : State) : Port → Option Response
  | .S => s.respS
  | .H => s.respH

/-- Set what is pending on a port. -/
def State.setResp (s : State) (port : Port) (r : Option Response) : State :=
  match port with
  | .S => { s with respS := r }
  | .H => { s with respH := r }

/-- End a command that arrived on `port`: its architectural effect, and its response on that port (R25, R31;
log entry 15). -/
def State.complete (s : State) (port : Port) (r : Result) : State :=
  { s with sketch := r.sketch }.setResp port (some r.response)

end Sys2Proof.Machine
end

