-- ==== Sys2Proof/Machine/Add.lean ====
section
/-!
DEFINITION. `ADD` (41_add.md).
-/

namespace Sys2Proof.Machine

/-- R54's pseudocode. -/
def addCommand (hashValue : Word64) : Option Sketch → Result
  | none => raise none .notConstructed 0x02#8 0#64
  | some sk => respondOk (some (sk.record hashValue)) 0#8 0#64

/-- `ADD` (R54). -/
def execAdd (hashValue : Word64) (s : State) : Host.Outcome State Fault Refusal :=
  .next (s.complete .S (addCommand hashValue s.sketch))

end Sys2Proof.Machine
end

