-- ==== Sys2Proof/Machine/Construct.lean ====
section
/-!
DEFINITION. `CONSTRUCT` (40_construct.md).
-/

namespace Sys2Proof.Machine

/-- R45's pseudocode. The old state is not looked at, only kept by an error (R47, R48). -/
def constructCommand (arg : Word64) (before : Option Sketch) : Result :=
  if signedPrecision arg < Config.pMin then raise before .rangeError (BitVec.ofNat 8 Config.pMin) arg
  else if (Config.pMax : Int) < signedPrecision arg then raise before .rangeError (BitVec.ofNat 8 Config.pMax) arg
  else respondOk (some (Sketch.fresh (signedPrecision arg).toNat)) 0#8 0#64

/-- `CONSTRUCT` (R45). -/
def execConstruct (arg : Word64) (s : State) : Host.Outcome State Fault Refusal :=
  .next (s.complete .S (constructCommand arg s.sketch))

end Sys2Proof.Machine
end

