-- ==== Sys2Proof/Machine/Estimator.lean ====
section
/-!
DEFINITION. The sub-block `cardinality_estimator`: the spec's rational formulas (R7, R60 to R63), the integer sum of
R61, and the form `COUNT` computes, which sums over the listed registers only (R65; log entry 7).
-/

namespace Sys2Proof.Machine

/-- `2^(63 - (r mod 64))`, the term of a register value scaled by `2^63` (R60, R61; log entry 8). -/
def scaledTerm (r : Byte) : Nat := 2 ^ (63 - r.toNat % 64)

/-- `Zint` (R61): the registers that are not listed hold 0, and each gives the term of 0. -/
def zint (p : Nat) (x : Memory) : Nat :=
  (registerCount p - x.length) * scaledTerm Config.unlistedRegister + (x.map fun c => scaledTerm c.2).sum

/-- The closed integer form of the estimate (R65). -/
def estimate (p : Nat) (x : Memory) : Nat :=
  Config.alphaNumerator * registerCount p ^ 3 * 2 ^ 63
    / (10 * (1000 * registerCount p + Config.alphaDenominator) * zint p x)

/-- The estimate of a Sketch. -/
def Sketch.estimate (sk : Sketch) : Nat := Machine.estimate sk.precision sk.x

/-- `Zint` as R61 writes it: the sum over all `m` registers. -/
def zintOverAll (p : Nat) (x : Memory) : Nat := ∑ i ∈ Finset.range (registerCount p), scaledTerm (x.read i)

/-- `term(r) = 2^-(r mod 64)` (R60). -/
def term (r : Byte) : ℚ := 1 / 2 ^ (r.toNat % 64)

/-- The harmonic-mean denominator `Z` (R61). -/
def harmonicSum (p : Nat) (x : Memory) : ℚ := ∑ i ∈ Finset.range (registerCount p), term (x.read i)

/-- `alpha(m) = 0.7213 / (1 + 1.079/m)` (R7), the literals read as exact rationals (R64; log entry 10). -/
def alpha (m : Nat) : ℚ := (Config.alphaNumerator / 10000 : ℚ) / (1 + (Config.alphaDenominator / 1000 : ℚ) / m)

/-- `alphaTerm = alpha(m) * m^2` (R7). -/
def alphaTerm (p : Nat) : ℚ := alpha (registerCount p) * (registerCount p : ℚ) ^ 2

/-- `rawEstimate = alphaTerm / Z` (R62). -/
def rawEstimate (p : Nat) (x : Memory) : ℚ := alphaTerm p / harmonicSum p x

end Sys2Proof.Machine
end

