-- ==== Sys2Proof/Machine/Flags.lean ====
section
/-!
DEFINITION. The one computed flag: `SAT`, bit 0 of the `info` of a `COUNT` response (R66). It is not stored (R15).
-/

namespace Sys2Proof.Machine

/-- The estimate fits a signed 64-bit result (R66). -/
def fitsResult (estimate : Nat) : Bool := decide (estimate ≤ Config.i64Max)

/-- `info` of a `COUNT` response: `SAT` in bit 0, bits 7:1 zero (R33, R66). -/
def countInfo (estimate : Nat) : Byte := if fitsResult estimate then 0#8 else 1#8

/-- `value` of a `COUNT` response: the estimate, saturated (R66; log entry 9). -/
def countValue (estimate : Nat) : Word64 :=
  if fitsResult estimate then BitVec.ofNat 64 estimate else BitVec.ofNat 64 Config.i64Max

end Sys2Proof.Machine
end

