-- ==== Sys2Proof/Machine/Count.lean ====
section
/-!
DEFINITION. `COUNT` (42_count.md).
-/

namespace Sys2Proof.Machine

/-- R69's pseudocode. -/
def countCommand : Option Sketch → Result
  | none => raise none .notConstructed 0x03#8 0#64
  | some sk => respondOk (some sk) (countInfo sk.estimate) (countValue sk.estimate)

/-- `COUNT` (R69). -/
def execCount (s : State) : Host.Outcome State Fault Refusal :=
  .next (s.complete .S (countCommand s.sketch))

end Sys2Proof.Machine
end

