-- ==== Sys2Proof/Syntax.lean ====
section
/-!
DEFINITION. The instruction set: one constructor for each row of spec/opcode_table.json (R103, R34, R37).
-/

namespace Sys2Proof

/-- What a `HASH` request says of the primitive call it reports (R37). The fields R37 calls don't-care for a value of
`fail` have no place in that constructor, so no meaning can read them (R39; log entry 11). -/
inductive AdapterOperand where
  /-- `fail = 1`: the primitive failed with the token `err`. -/
  | failed (err : BitVec 32)
  /-- `fail = 0`: a digest of `dlen` bytes, whose byte `k < 8` is bits `8k+7 .. 8k` of `d`. -/
  | digest (dlen : BitVec 16) (d : Word64)
  deriving DecidableEq, Repr

/-- The four commands. -/
inductive Instr where
  /-- `CONSTRUCT`, port S, op 0x01: `arg` is the precision (R45). -/
  | construct (arg : Word64)
  /-- `ADD`, port S, op 0x02: `hashValue` (R54). -/
  | add (hashValue : Word64)
  /-- `COUNT`, port S, op 0x03: its `arg` is don't-care and not kept (R69, R39; log entry 11). -/
  | count
  /-- `HASH`, port H (R70). -/
  | hash (q : AdapterOperand)
  deriving DecidableEq, Repr

/-- The port an instruction travels on (R31). -/
def Instr.port : Instr → Port
  | .construct _ => .S
  | .add _ => .S
  | .count => .S
  | .hash _ => .H

end Sys2Proof
end

