-- ==== Sys2Proof/Machine/HashAdapter.lean ====
section
/-!
DEFINITION. `HASH` and the hash adapter (43_hash_adapter.md).
-/

namespace Sys2Proof.Machine

/-- R70's pseudocode. `fail` is tested first, by the shape of the operand (R86). -/
def hashCommand (q : AdapterOperand) (before : Option Sketch) : Result :=
  match q with
  | .failed err => raise before .primFailure 0#8 (err.setWidth 64)
  | .digest dlen d =>
    if dlen.toNat < Config.digestBytes then raise before .shortDigest 0#8 (dlen.setWidth 64)
    else respondOk before 0#8 d

/-- `HASH` (R70). -/
def execHash (q : AdapterOperand) (s : State) : Host.Outcome State Fault Refusal :=
  .next (s.complete .H (hashCommand q s.sketch))

end Sys2Proof.Machine
end

