-- ==== Sys2Proof/Machine/Dispatch.lean ====
section
/-!
DEFINITION. One arm per command of spec/opcode_table.json.
-/

namespace Sys2Proof.Machine

def exec (i : Instr) (s : State) : Host.Outcome State Fault Refusal :=
  match i with
  | .construct arg => Sys2Proof.Machine.execConstruct arg s
  | .add hashValue => Sys2Proof.Machine.execAdd hashValue s
  | .count => Sys2Proof.Machine.execCount s
  | .hash q => Sys2Proof.Machine.execHash q s

end Sys2Proof.Machine
end

