-- ==== Sys2Proof/WellFormed.lean ====
section
/-!
DEFINITION. Which instruction terms are the reading of a word. The one check: a digest shorter than eight bytes has
nothing in the byte lanes it does not reach (R37 calls those lanes don't-care, R39 forbids reading them).
-/

namespace Sys2Proof

/-- Lanes `k >= dlen` of `d` hold 0. -/
def AdapterOperand.wf : AdapterOperand → Bool
  | .failed _ => true
  | .digest dlen d => decide (Config.digestBytes ≤ dlen.toNat ∨ d.toNat < 2 ^ (8 * dlen.toNat))

/-- The instruction is what some word decodes to. -/
def Instr.wf : Instr → Bool
  | .construct _ => true
  | .add _ => true
  | .count => true
  | .hash q => q.wf

end Sys2Proof
end

