-- ==== Sys2Proof/Decode.lean ====
section
/-!
DEFINITION. The decoder of both ports, total on all words (R34, R36, R37, R42), the encoder written from the same
layouts, and the host's entry `decodeTableWord`.
-/

namespace Sys2Proof

/-- What a request word spells: a command, or a reserved opcode of port S, rejected by its `op` byte (R36). -/
inductive Decoded where
  | instr (i : Instr)
  | illegal (op : Byte)
  deriving DecidableEq, Repr

/-- `CW[71:64]` (R32). -/
def opField (cw : CommandWord) : Byte := cw.extractLsb' 64 8

/-- `CW[63:0]` (R32). -/
def argField (cw : CommandWord) : Word64 := cw.extractLsb' 0 64

/-- `HQ[112]` (R37). -/
def failField (hq : AdapterWord) : BitVec 1 := hq.extractLsb' 112 1

/-- `HQ[111:80]` (R37). -/
def errField (hq : AdapterWord) : BitVec 32 := hq.extractLsb' 80 32

/-- `HQ[79:64]` (R37). -/
def dlenField (hq : AdapterWord) : BitVec 16 := hq.extractLsb' 64 16

/-- `HQ[63:0]` (R37). -/
def dField (hq : AdapterWord) : Word64 := hq.extractLsb' 0 64

/-- `d` with the byte lanes `k >= dlen` cleared: they are don't-care (R37, R39). -/
def reachedLanes (dlen : BitVec 16) (d : Word64) : Word64 :=
  if Config.digestBytes ≤ dlen.toNat then d else BitVec.ofNat 64 (d.toNat % 2 ^ (8 * dlen.toNat))

/-- Port S: three opcodes, every other one reserved (R34, R36). -/
def decodeS (cw : CommandWord) : Decoded :=
  if opField cw = 0x01#8 then .instr (.construct (argField cw))
  else if opField cw = 0x02#8 then .instr (.add (argField cw))
  else if opField cw = 0x03#8 then .instr .count
  else .illegal (opField cw)

/-- Port H: every word is a `HASH` (R37). -/
def decodeH (hq : AdapterWord) : Instr :=
  if failField hq = 1#1 then .hash (.failed (errField hq))
  else .hash (.digest (dlenField hq) (reachedLanes (dlenField hq) (dField hq)))

/-- The decoder: the port a word arrives on says how to read it (R42). -/
def decode : Request → Decoded
  | .s cw => decodeS cw
  | .h hq => .instr (decodeH hq)

/-- `{op, arg}` (R32). -/
def commandWord (op : Byte) (arg : Word64) : CommandWord := op ++ arg

/-- `{fail, err, dlen, d}` (R37). -/
def adapterWord (fail : BitVec 1) (err : BitVec 32) (dlen : BitVec 16) (d : Word64) : AdapterWord :=
  fail ++ err ++ dlen ++ d

/-- The request word of an instruction; every don't-care field is written as 0, as the assembler does (R40). -/
def encode : Instr → Request
  | .construct arg => .s (commandWord 0x01#8 arg)
  | .add hashValue => .s (commandWord 0x02#8 hashValue)
  | .count => .s (commandWord 0x03#8 0#64)
  | .hash (.failed err) => .h (adapterWord 1#1 err 0#16 0#64)
  | .hash (.digest dlen d) => .h (adapterWord 0#1 0#32 dlen d)

/-- The request word that `nbits` bits of value `w` are: a word of the table's port S width (72 bits) travels on
port S, a longer one is a 113-bit word of port H, which the host's count in whole bytes calls 120 bits (log entry 12).
A value that does not fit the port's word is no request. -/
def requestOfTable (nbits w : Nat) : Option Request :=
  if nbits ≤ 72 then
    if w < 2 ^ 72 then some (.s (BitVec.ofNat 72 w)) else none
  else
    if w < 2 ^ 113 then some (.h (BitVec.ofNat 113 w)) else none

/-- The instruction the decoder reads from a word of spec/opcode_table.json. -/
def decodeTableWord (nbits w : Nat) : Option Instr :=
  match requestOfTable nbits w with
  | none => none
  | some r =>
    match decode r with
    | .instr i => some i
    | .illegal _ => none

end Sys2Proof
end

