-- ==== Sys2Proof/Machine/Ports.lean ====
section
/-!
DEFINITION. The two ports at transaction level (R31, R97), the reset event (R95, R102), and what lands next of what the
host does (R101; log entry 3).
-/

namespace Sys2Proof.Machine

/-- A port S word with a reserved opcode: `ILLEGAL_COMMAND`, in any state (R36, R83). -/
def illegalCommand (op : Byte) (before : Option Sketch) : Result := raise before .illegalCommand op 0#64

/-- The engine's answer to a word that spells no command (R83). -/
def execIllegal (op : Byte) (s : State) : Host.Outcome State Fault Refusal :=
  .next (s.complete .S (illegalCommand op s.sketch))

/-- A word of this port can be accepted: the last response has been taken (R97). -/
def State.free (s : State) (port : Port) : Bool := (s.resp port).isNone

/-- The event can happen now. A word waits at the port until the port is free (R97), a host that takes a response waits
until there is one, and reset waits for nothing (R88). -/
def HostEvent.ready (s : State) : HostEvent → Bool
  | .present w => s.free w.port
  | .take port => (s.resp port).isSome
  | .reset => true
  | .resetDuring w => s.free w.port

/-- The first event of a list that can happen now, and the list without it. A word that waits is never passed over by a
later word of its port (R25). A take that waits, with no response pending, is passed over by any later event that can
happen, a word of the same port included: the spec does not speak of such a host (DESIGN CHOICE, log entry 3). -/
def firstReady (s : State) : List HostEvent → Option (HostEvent × List HostEvent)
  | [] => none
  | e :: rest =>
    if e.ready s then some (e, rest)
    else
      match firstReady s rest with
      | none => none
      | some (e', rest') => some (e', e :: rest')

/-- The host takes the response pending on a port (R97, R101). -/
def State.take (s : State) (port : Port) : State :=
  match s.resp port with
  | none => s
  | some r => { s with received := s.received ++ [(port, r)] }.setResp port none

/-- The reset event: no Sketch, no response pending (R95, R17). Words that wait at a port stay there (log entry 5), and
what the host has taken it has. -/
def State.resetEvent (s : State) : State := { s with sketch := none, respS := none, respH := none }

/-- Place a request word so that the next step accepts it: its port is free and the host presents it next. -/
def State.offer (s : State) (w : Request) : State :=
  { s with events := .present w :: s.events }.setResp w.port none

/-- `offer` of a word of spec/opcode_table.json; a value that is no word of a port is not presented. -/
def State.offerTableWord (s : State) (nbits w : Nat) : State :=
  match requestOfTable nbits w with
  | none => s
  | some r => s.offer r

end Sys2Proof.Machine
end

