-- ==== Sys2Proof/Machine/Transaction.lean ====
section
/-!
DEFINITION. One transaction as one atomic step (R25, R31), and what each host event does when it happens.
-/

namespace Sys2Proof.Machine

/-- The engine accepts a request word, executes its command and gives the response (R31). The decoding comes before any
look at the state (R86). -/
def serve (w : Request) (s : State) : Host.Outcome State Fault Refusal :=
  match decode w with
  | .instr i => exec i s
  | .illegal op => execIllegal op s

/-- What a host event does when it happens. A command that a reset abandons leaves the reset state and no response,
whatever part of it had been done (R102). -/
def perform (e : HostEvent) (s : State) : Host.Outcome State Fault Refusal :=
  match e with
  | .present w => serve w s
  | .take port => .next (s.take port)
  | .reset => .next s.resetEvent
  | .resetDuring _ => .next s.resetEvent

end Sys2Proof.Machine
end

