-- ==== Sys2Proof/Machine/Step.lean ====
section
/-!
DEFINITION. One step: the next thing that happens at the engine's boundary, a command being one atomic step (R25). The
engine has no program counter and fetches nothing (R14).
-/

namespace Sys2Proof.Machine

/-- The first event that can happen does; with none, the engine waits (R101; log entries 6 and 16). -/
def step (s : State) : Host.Outcome State Fault Refusal :=
  match firstReady s s.events with
  | none => .next s
  | some (e, rest) => perform e { s with events := rest }

/-- The state in which the host presents the word next, on a free port (log entry 3). -/
def State.withFetchWord (s : State) (nbits w : Nat) : State := s.offerTableWord nbits w

end Sys2Proof.Machine
end

