-- ==== Sys2Proof/Machine/HostSide.lean ====
section
/-!
DEFINITION. The host's side of the two ports: packing the outcome of PRIM into a request word (R37, R71), the abstract
form of `HASH` (R70), one whole transaction (R31), and the pseudo-instruction `ADDH` (R41). None of it is engine state
or an engine command. PRIM is an argument throughout (R71; log entry 13).
-/

namespace Sys2Proof.Machine

/-- Bytes as an unsigned number, the first the least significant (R23). -/
def littleEndian : List Byte → Nat
  | [] => 0
  | b :: rest => b.toNat + 2 ^ 8 * littleEndian rest

/-- `MemRead(addr, n)` of the digest (00_scope.md section 5.2). -/
def memRead (digest : List Byte) (addr n : Nat) : Nat := littleEndian ((digest.drop addr).take n)

/-- The `d` field: digest byte `k` in bits `8k+7 .. 8k`, lanes the digest does not reach 0 (R37, R40). -/
def digestLanes (digest : List Byte) : Word64 := BitVec.ofNat 64 (memRead digest 0 Config.digestBytes)

/-- The request word that tells of one call of the primitive (R37, R71): a long digest's length is clipped. -/
def packOutcome : Config.PrimResult → AdapterWord
  | .fail err => adapterWord 1#1 err 0#16 0#64
  | .ok digest => adapterWord 0#1 0#32 (BitVec.ofNat 16 (min digest.length Config.dlenMax)) (digestLanes digest)

/-- `adapt`: what `HASH` answers to an outcome of the primitive (R70, R72, R74). -/
def adapt : Config.PrimResult → Response
  | .fail err => { status := .primFailure, info := 0#8, value := err.setWidth 64 }
  | .ok digest =>
    if digest.length < Config.digestBytes then
      { status := .shortDigest, info := 0#8, value := BitVec.ofNat 64 digest.length }
    else { status := .ok, info := 0#8, value := BitVec.ofNat 64 (memRead digest 0 Config.digestBytes) }

/-- The port H request for `Hash(PRIM, data)`: the primitive is called once on `data` (R71). -/
def hashRequest (prim : Config.Prim) (data : List Byte) : Request := .h (packOutcome (prim data))

/-- One whole transaction: the engine serves the word and the host takes the response (R31). -/
def transact (w : Request) (s : State) : Host.Outcome State Fault Refusal :=
  match serve w s with
  | .next t => .next (t.take w.port)
  | .fault f => .fault f
  | .refused r => .refused r

/-- `ADDH`: `HASH` with the outcome of the primitive, then, only if its response is `OK`, `ADD` of its value (R41). -/
def addh (prim : Config.Prim) (data : List Byte) (s : State) : Host.Outcome State Fault Refusal :=
  match transact (hashRequest prim data) s with
  | .next t =>
    match t.received.getLast? with
    | some (_, r) => if r.status = .ok then transact (encode (.add r.value)) t else .next t
    | none => .next t
  | .fault f => .fault f
  | .refused r => .refused r

/-- What a host that runs a list of commands does: each word is presented, and its response taken, in turn (R97). -/
def hostProgram (words : List Request) : List HostEvent := words.flatMap fun w => [.present w, .take w.port]

end Sys2Proof.Machine
end

