-- ==== Sys2Proof/Machine/Assembler.lean ====
section
/-!
DEFINITION. The assembler notation (R40, R41): one command or one expected response a line, as characters. What the spec
leaves open of the text's form is log entry 14.
-/

namespace Sys2Proof.Machine

/-- The command forms of R40 and the pseudo-instruction of R41. -/
inductive AsmCommand where
  | construct (arg : Word64)
  | add (hashValue : Word64)
  | count
  | hashDigest (digest : List Byte)
  | hashFail (err : BitVec 32)
  | addh (prim : List Char) (data : List Byte)
  deriving DecidableEq, Repr

/-- A line: nothing but a comment, a command, or the response expected of the command before it. -/
inductive AsmLine where
  | blank
  | command (c : AsmCommand)
  | expect (status : Status) (info value : Option Nat)
  deriving DecidableEq, Repr

/-- The request word of a command form, don't-care fields 0 (R40). `ADDH` is a host-side sequence and has no word of
its own (R41; `addh`). -/
def assemble : AsmCommand → Option Request
  | .construct arg => some (encode (.construct arg))
  | .add hashValue => some (encode (.add hashValue))
  | .count => some (encode .count)
  | .hashDigest digest => some (.h (packOutcome (.ok digest)))
  | .hashFail err => some (.h (packOutcome (.fail err)))
  | .addh _ _ => none

/-- The hexadecimal digits, each at the place of its value; the first ten are the decimal digits. -/
def hexDigits : List Char := "0123456789ABCDEF".toList

/-- The value of a digit: its place among `hexDigits`, in either case (log entry 14). -/
def digitOf (c : Char) : Option Nat := hexDigits.findIdx? (· = c.toUpper)

/-- Digits in a base, most significant first, after the ones already read; underscores separate (00_scope.md
section 5.1). -/
def digitsFrom (base : Nat) : Nat → List Char → Option Nat
  | acc, [] => some acc
  | acc, c :: rest =>
    if c = '_' then digitsFrom base acc rest
    else
      match digitOf c with
      | none => none
      | some v => if v < base then digitsFrom base (acc * base + v) rest else none

/-- Digits in a base: at least one character. A token of underscores and no digit is the number 0, which is the model's
choice (DESIGN CHOICE, log entry 14). -/
def digits (base : Nat) : List Char → Option Nat
  | [] => none
  | c :: rest => digitsFrom base 0 (c :: rest)

/-- `0x` and hexadecimal digits, or decimal digits. -/
def readNat : List Char → Option Nat
  | '0' :: 'x' :: rest => digits 16 rest
  | cs => digits 10 cs

/-- An unsigned number of `width` bits. -/
def readUnsigned (width : Nat) (cs : List Char) : Option (BitVec width) :=
  match readNat cs with
  | none => none
  | some n => if n < 2 ^ width then some (BitVec.ofNat width n) else none

/-- The operand of `CONSTRUCT`: a signed decimal, or the hexadecimal 64-bit pattern (R40). -/
def readPrecision : List Char → Option Word64
  | '0' :: 'x' :: rest => readUnsigned 64 ('0' :: 'x' :: rest)
  | '-' :: rest =>
    match digits 10 rest with
    | none => none
    | some n => if n ≤ 2 ^ 63 then some (BitVec.ofInt 64 (-(n : Int))) else none
  | cs =>
    match digits 10 cs with
    | none => none
    | some n => if n < 2 ^ 63 then some (BitVec.ofNat 64 n) else none

/-- Two hexadecimal digits a byte, the first byte first. -/
def readBytes : List Char → Option (List Byte)
  | [] => some []
  | [_] => none
  | c :: d :: rest =>
    match digitOf c, digitOf d, readBytes rest with
    | some hi, some lo, some bytes => some (BitVec.ofNat 8 (16 * hi + lo) :: bytes)
    | _, _, _ => none

/-- What follows `key` at the head of a token. -/
def afterKey : List Char → List Char → Option (List Char)
  | [], cs => some cs
  | _ :: _, [] => none
  | k :: key, c :: cs => if k = c then afterKey key cs else none

/-- The names of the statuses (R80). -/
def readStatus (cs : List Char) : Option Status :=
  if cs = "OK".toList then some .ok
  else if cs = "RANGE_ERROR".toList then some .rangeError
  else if cs = "NOT_CONSTRUCTED".toList then some .notConstructed
  else if cs = "ILLEGAL_COMMAND".toList then some .illegalCommand
  else if cs = "PRIM_FAILURE".toList then some .primFailure
  else if cs = "SHORT_DIGEST".toList then some .shortDigest
  else none

/-- The number after `key` in an expected response. R40 does not give its form: that it is unsigned, decimal or `0x` and
hexadecimal, and of any size, is the model's choice (DESIGN CHOICE, log entry 14). -/
def readField (key cs : List Char) : Option Nat := (afterKey key cs).bind readNat

/-- `HASH digest=<hex bytes>` or `HASH fail=<err>`. -/
def readHash (cs : List Char) : Option AsmCommand :=
  match afterKey "digest=".toList cs with
  | some bytes => (readBytes bytes).map .hashDigest
  | none => ((afterKey "fail=".toList cs).bind (readUnsigned 32)).map .hashFail

/-- `[info=<n>] [value=<n>]` after a status. -/
def readExpect (status : Status) : List (List Char) → Option AsmLine
  | [] => some (.expect status none none)
  | [cs] =>
    match readField "info=".toList cs with
    | some n => some (.expect status (some n) none)
    | none => (readField "value=".toList cs).map fun n => .expect status none (some n)
  | [cs, ds] =>
    match readField "info=".toList cs, readField "value=".toList ds with
    | some n, some v => some (.expect status (some n) (some v))
    | _, _ => none
  | _ => none

/-- The tokens of a line, the token being read given in reverse. -/
def tokensFrom : List Char → List Char → List (List Char)
  | [], [] => []
  | acc, [] => [acc.reverse]
  | acc, c :: rest =>
    if c = ' ' ∨ c = '\t' then
      match acc with
      | [] => tokensFrom [] rest
      | _ => acc.reverse :: tokensFrom [] rest
    else tokensFrom (c :: acc) rest

/-- The text of a line up to its comment. -/
def withoutComment (line : List Char) : List Char := line.takeWhile (· ≠ ';')

/-- A command from its mnemonic, in upper case, and its operands. R41 does not say how `ADDH` of zero-length data (R71)
is written: that it is the line without a data token is the model's choice (DESIGN CHOICE, log entry 14). -/
def readCommand (mnemonic : List Char) (operands : List (List Char)) : Option AsmCommand :=
  match operands with
  | [] => if mnemonic = "COUNT".toList then some .count else none
  | [cs] =>
    if mnemonic = "CONSTRUCT".toList then (readPrecision cs).map .construct
    else if mnemonic = "ADD".toList then (readUnsigned 64 cs).map .add
    else if mnemonic = "HASH".toList then readHash cs
    else if mnemonic = "ADDH".toList then some (.addh cs [])
    else none
  | [prim, cs] => if mnemonic = "ADDH".toList then (readBytes cs).map (.addh prim) else none
  | _ => none

/-- One line of a command stream; none for a text that is no line of R40. -/
def parseLine (line : List Char) : Option AsmLine :=
  match tokensFrom [] (withoutComment line) with
  | [] => some .blank
  | head :: rest =>
    if head = "->".toList then
      match rest with
      | [] => none
      | st :: fields => (readStatus st).bind fun status => readExpect status fields
    else (readCommand head rest).map .command

/-- The response is the one an expectation line asks for; a field the line leaves out may be anything. -/
def AsmLine.agrees (r : Response) : AsmLine → Bool
  | .expect status info value =>
    decide (r.status = status) && (info.all fun n => decide (r.info.toNat = n))
      && (value.all fun n => decide (r.value.toNat = n))
  | .blank => true
  | .command _ => true

end Sys2Proof.Machine
end

