-- ==== Sys2Proof/Safety.lean ====
section
/-!
DEFINITION. What counts as a good state and as a safe step, in the terms the claims use: the invariants of R8 to R10 and
of the table of R80, and the events that stay inside one lifetime of a Sketch (R47).
-/

namespace Sys2Proof.Machine

/-- A register value of a Sketch of precision `p`: `0 .. 64-p`, or the sentinel (R10). -/
def legalRegister (p : Nat) (b : Byte) : Bool :=
  decide (b.toNat ≤ remainderBits p ∨ b.toNat = Config.sentinel)

/-- The precision is in range (R2), the array is in its canonical form (log entry 2), every listed cell is one of the
`m` cells (R8, R29) and holds a legal value (R10). -/
def Sketch.wf (sk : Sketch) : Bool :=
  decide (Config.pMin ≤ sk.precision ∧ sk.precision ≤ Config.pMax ∧ sk.x.wf = true
    ∧ ∀ c ∈ sk.x, c.1 < sk.m ∧ legalRegister sk.precision c.2 = true)

/-- The architectural state is good: a Sketch in existence is. -/
def State.wf (s : State) : Bool :=
  match s.sketch with
  | none => true
  | some sk => sk.wf

/-- The response is one that R80's table allows on its port. -/
def Response.legal (port : Port) (r : Response) : Bool :=
  match port, r.status with
  | .S, .ok =>
    decide (r.value.toNat ≤ Config.i64Max ∧ (r.info = 0#8 ∨ (r.info = 1#8 ∧ r.value.toNat = Config.i64Max)))
  | .S, .rangeError =>
    decide ((r.info = 7#8 ∧ r.value.toInt < 7) ∨ (r.info = 18#8 ∧ 18 < r.value.toInt))
  | .S, .notConstructed => decide ((r.info = 0x02#8 ∨ r.info = 0x03#8) ∧ r.value = 0#64)
  | .S, .illegalCommand => decide ((r.info = 0x00#8 ∨ 0x04 ≤ r.info.toNat) ∧ r.value = 0#64)
  | .S, .primFailure => false
  | .S, .shortDigest => false
  | .H, .ok => decide (r.info = 0#8)
  | .H, .primFailure => decide (r.info = 0#8 ∧ r.value.toNat < 2 ^ 32)
  | .H, .shortDigest => decide (r.info = 0#8 ∧ r.value.toNat < 8)
  | .H, .rangeError => false
  | .H, .notConstructed => false
  | .H, .illegalCommand => false

/-- What is pending on a port, if anything, is legal there. -/
def pendingLegal (port : Port) (r : Option Response) : Bool :=
  match r with
  | none => true
  | some r => r.legal port

/-- The invariant of the whole state: a good Sketch, and only responses of R80's table, pending or taken. -/
def State.Inv (s : State) : Bool :=
  decide (s.wf = true ∧ pendingLegal .S s.respS = true ∧ pendingLegal .H s.respH = true
    ∧ ∀ pr ∈ s.received, pr.2.legal pr.1 = true)

/-- The step answers a next state. -/
def StepsOn (s : State) : Prop := ∃ t, step s = .next t

/-- A request word that a host may present without ending the lifetime of the Sketch: any word but a `CONSTRUCT` that
succeeds (R47). -/
def keepsLifetime (w : Request) : Bool :=
  match decode w with
  | .instr (.construct arg) => decide (signedPrecision arg < 7 ∨ 18 < signedPrecision arg)
  | .instr (.add _) => true
  | .instr .count => true
  | .instr (.hash _) => true
  | .illegal _ => true

/-- An event inside one lifetime: no reset and no successful `CONSTRUCT` (R47). -/
def HostEvent.inLifetime : HostEvent → Bool
  | .present w => keepsLifetime w
  | .take _ => true
  | .reset => false
  | .resetDuring _ => false

/-- The Sketch after `ADD` of each of a list of hash values, in order (R56). -/
def Sketch.recordAll (sk : Sketch) (hashes : List Word64) : Sketch := hashes.foldl Sketch.record sk

/-- `ADD` of each of a list of hash values, in order, as the machine executes them. -/
def addAll : List Word64 → State → Host.Outcome State Fault Refusal
  | [], s => .next s
  | h :: rest, s =>
    match exec (.add h) s with
    | .next t => addAll rest t
    | .fault f => .fault f
    | .refused r => .refused r

/-- The largest rank over the hash values of a list that select register `i`, and 0 if none does (R56). -/
def maxRank (p : Nat) (hashes : List Word64) (i : Nat) : Nat :=
  ((hashes.filter fun h => decide (bucketIndex p h = i)).map (rankOf p)).foldr max 0

end Sys2Proof.Machine
end

