-- ==== Sys2Proof/Certificates/Slice0/Obligations.lean ====
section
/-!
DEFINITION. The statements for the provers. Each docstring names the rules it formalises. Where one speaks of `exec` or
`serve` in every state, that takes in states whose port still holds a response; no step runs a command there (log entry 15).
-/

open Sys2Proof Sys2Proof.Machine

/-! ## Encoding -/

/-- R32, R34, R37, R40: words written out in the spec's test vectors decode to the commands they stand for. -/
def Obligations.SpecWordsDecode : Prop :=
  decodeTableWord 72 0x010000000000000012 = some (.construct 18#64)
  ∧ decodeTableWord 72 0x028AC7230489E7FFFF = some (.add 9999999999999999999#64)
  ∧ decodeTableWord 72 0x0300000000DEADBEEF = some .count
  ∧ decodeTableWord 113 0x0000000000010E74044E405DCEEA6 = some (.hash (.digest 16#16 0xE74044E405DCEEA6#64))
  ∧ decodeTableWord 113 0x1DEADBEEF00000000000000000000 = some (.hash (.failed 0xDEADBEEF#32))
  ∧ decodeTableWord 72 0x000000000000000000 = none
  ∧ decodeTableWord 72 0x040000000000000007 = none
  ∧ decodeTableWord 72 0xFFFFFFFFFFFFFFFFFF = none

/-- R32, R34, R37: the decoder reads back every well-formed instruction from its word, with every operand. Which terms
are well-formed is the model's own (log entry 11). -/
def Obligations.DecodeOfEncodeGivesTheInstruction : Prop :=
  ∀ i : Instr, i.wf = true → decode (encode i) = .instr i

/-- R37, R39, R40: what any word decodes to is well-formed, and its word with every don't-care field 0 is a word of the
same port that decodes to the same instruction. That what a word decodes to is well-formed, the lanes that a digest does
not reach being 0, is the model's own: the rules only call those lanes don't-care (log entry 11, DEDUCED). -/
def Obligations.EveryWordReadsAsItsAssembledWord : Prop :=
  ∀ (w : Request) (i : Instr), decode w = .instr i →
    i.wf = true ∧ (encode i).port = w.port ∧ decode (encode i) = .instr i

/-- R34, R36: the opcode map of port S by its match and mask columns, operands whole, every other `op` illegal. -/
def Obligations.PortSWordsFollowTheOpcodeMap : Prop :=
  ∀ cw : CommandWord,
    (cw &&& 0xFF0000000000000000#72 = 0x010000000000000000#72 →
      decode (.s cw) = .instr (.construct (cw.setWidth 64)))
    ∧ (cw &&& 0xFF0000000000000000#72 = 0x020000000000000000#72 →
      decode (.s cw) = .instr (.add (cw.setWidth 64)))
    ∧ (cw &&& 0xFF0000000000000000#72 = 0x030000000000000000#72 → decode (.s cw) = .instr .count)
    ∧ (((cw >>> 64).setWidth 8 = 0x00#8 ∨ 0x04 ≤ ((cw >>> 64).setWidth 8).toNat) →
      decode (.s cw) = .illegal ((cw >>> 64).setWidth 8))

/-- R37: every word of port H is a `HASH`, its fields the bits the layout names. That the lanes the digest does not reach
decode to 0, whatever they hold, is the model's own: R37 and R39 only call them don't-care (log entry 11, DEDUCED). -/
def Obligations.PortHWordsReadTheirFields : Prop :=
  ∀ hq : AdapterWord,
    (hq.getLsbD 112 = true → decode (.h hq) = .instr (.hash (.failed ((hq >>> 80).setWidth 32))))
    ∧ (hq.getLsbD 112 = false → ∃ d : Word64,
        decode (.h hq) = .instr (.hash (.digest ((hq >>> 64).setWidth 16) d))
        ∧ ∀ j < 64, d.getLsbD j = (hq.getLsbD j && decide (j < 8 * ((hq >>> 64).setWidth 16).toNat)))

/-- R39: words that differ only in don't-care places decode alike. -/
def Obligations.DontCareFieldsAreNotRead : Prop :=
  (∀ a b : Word64, decode (.s (commandWord 0x03#8 a)) = decode (.s (commandWord 0x03#8 b)))
  ∧ (∀ (op : Byte) (a b : Word64), op = 0x00#8 ∨ 0x04 ≤ op.toNat →
      decode (.s (commandWord op a)) = decode (.s (commandWord op b)))
  ∧ (∀ (err : BitVec 32) (dlen dlen' : BitVec 16) (d d' : Word64),
      decode (.h (adapterWord 1#1 err dlen d)) = decode (.h (adapterWord 1#1 err dlen' d')))
  ∧ (∀ (err err' : BitVec 32) (dlen : BitVec 16) (d d' : Word64),
      (∀ j < 64, j < 8 * dlen.toNat → d.getLsbD j = d'.getLsbD j) →
      decode (.h (adapterWord 0#1 err dlen d)) = decode (.h (adapterWord 0#1 err' dlen d')))

/-- R33, R80: the layout of a response word and the six codes. -/
def Obligations.ResponseWordLayout : Prop :=
  (∀ r : Response,
    (r.toWord >>> 72).setWidth 8 = r.status.code ∧ (r.toWord >>> 64).setWidth 8 = r.info
      ∧ r.toWord.setWidth 64 = r.value)
  ∧ (∀ r r' : Response, r.toWord = r'.toWord → r = r')
  ∧ Status.code .ok = 0x00#8 ∧ Status.code .rangeError = 0x01#8 ∧ Status.code .notConstructed = 0x02#8
  ∧ Status.code .illegalCommand = 0x03#8 ∧ Status.code .primFailure = 0x10#8 ∧ Status.code .shortDigest = 0x11#8

/-! ## The step, the ports, reset -/

/-- R25, R31, R97: a presented word whose port is free, with only waiting events before it, is decoded and its command
executed, in the state without the event; a word that spells no command is answered `ILLEGAL_COMMAND` there. That the
host's actions are a list in the state is the model's choice (log entry 3). -/
def Obligations.StepRunsThePresentedCommand : Prop :=
  ∀ (s : State) (before rest : List HostEvent) (w : Request),
    s.events = before ++ .present w :: rest → (∀ e ∈ before, e.ready s = false) → s.free w.port = true →
    (∀ i : Instr, decode w = .instr i → step s = exec i { s with events := before ++ rest })
    ∧ ∀ op : Byte, decode w = .illegal op → step s = .next { s with
        events := before ++ rest, respS := some { status := .illegalCommand, info := op, value := 0#64 } }

/-- The host's own entry (log entry 12): a table word that decodes is what the next step runs. -/
def Obligations.PlacedWordRunsNext : Prop :=
  ∀ (s : State) (nbits w : Nat) (i : Instr), decodeTableWord nbits w = some i →
    step (s.withFetchWord nbits w) = exec i (s.setResp i.port none)

/-- R36, R83: a port S word with a reserved opcode is answered `ILLEGAL_COMMAND` with its `op` byte, in any state and
whatever its `arg`, and changes nothing else; port H cannot raise it. -/
def Obligations.ReservedOpcodeIsAnsweredIllegalCommand : Prop :=
  (∀ (s : State) (op : Byte) (arg : Word64), op = 0x00#8 ∨ 0x04 ≤ op.toNat →
    serve (.s (commandWord op arg)) s = .next { s with
      respS := some { status := .illegalCommand, info := op, value := 0#64 } })
  ∧ ∀ (s t : State) (hq : AdapterWord) (r : Response), serve (.h hq) s = .next t → t.respH = some r →
      r.status ≠ .illegalCommand

/-- R97: while a port's response is pending its words wait. With nothing else to do the engine changes nothing (that
such a step leaves the state as it is: log entry 6). -/
def Obligations.WordsWaitForTheirPort : Prop :=
  ∀ s : State, (∀ e ∈ s.events, ∃ w, e = .present w ∧ (s.resp w.port).isSome = true) → step s = .next s

/-- R97: a word that waits at a busy port stays where it is in the host's list, and what the host does after it happens
as if it were not there. The list is the model's own (log entry 3), and that the word also stays when what happens is a
reset is the model's choice (log entry 5, DESIGN CHOICE, unsafe), not R97's. -/
def Obligations.WaitingWordIsPassedOver : Prop :=
  ∀ (s t : State) (w : Request) (rest : List HostEvent),
    s.events = .present w :: rest → (s.resp w.port).isSome = true → step { s with events := rest } = .next t →
    step s = .next { t with events := .present w :: t.events }

/-- R97, R101: the host takes a pending response: the port is free again, and nothing of the engine's changes. The
list and the record of what was taken are the model's own fields (log entries 3, 4). -/
def Obligations.HostTakesTheResponse : Prop :=
  ∀ (s : State) (rest : List HostEvent) (port : Port) (r : Response),
    s.events = .take port :: rest → s.resp port = some r →
    ∃ t, step s = .next t ∧ t.resp port = none ∧ t.received = s.received ++ [(port, r)] ∧ t.sketch = s.sketch
      ∧ t.events = rest ∧ ∀ other, other ≠ port → t.resp other = s.resp other

/-- R95, R17: the reset event leaves no Sketch and no pending response, whatever was there. What the host still means to
do and what it has taken are the model's own fields and stay (log entries 3, 4, 5). -/
def Obligations.ResetEventClearsTheEngine : Prop :=
  ∀ (s : State) (rest : List HostEvent), s.events = .reset :: rest →
    step s = .next { sketch := none, respS := none, respH := none, events := rest, received := s.received }

/-- R102: a reset while the engine executes a command leaves no Sketch and no response for that command, which is what a
reset between commands leaves. What the host still means to do and what it has taken are the model's own fields and stay
(log entries 3, 4, 5). -/
def Obligations.ResetAbandonsTheCommand : Prop :=
  ∀ (s : State) (rest : List HostEvent) (w : Request), s.resp w.port = none →
    step { s with events := .resetDuring w :: rest } =
      .next { sketch := none, respS := none, respH := none, events := rest, received := s.received }
    ∧ step { s with events := .resetDuring w :: rest } = step { s with events := .reset :: rest }

/-- R17: after reset no Sketch exists and no response is pending; R82: `ADD` and `COUNT` are then refused. -/
def Obligations.ResetStateHasNoSketch : Prop :=
  State.reset.sketch = none ∧ State.reset.respS = none ∧ State.reset.respH = none
  ∧ (∀ h : Word64, exec (.add h) State.reset = .next { State.reset with
      respS := some { status := .notConstructed, info := 0x02#8, value := 0#64 } })
  ∧ exec .count State.reset = .next { State.reset with
      respS := some { status := .notConstructed, info := 0x03#8, value := 0#64 } }

/-- R25, R14: of two words presented on the same port the earlier is never passed by the later. That waiting
words stand in a list that other events pass over is the model's choice (log entry 3). -/
def Obligations.WordsOfAPortKeepTheirOrder : Prop :=
  ∀ (s : State) (w : Request) (rest : List HostEvent), firstReady s s.events = some (.present w, rest) →
    ∃ before after, s.events = before ++ .present w :: after ∧ rest = before ++ after
      ∧ ∀ w', .present w' ∈ before → w'.port ≠ w.port

/-- R96, R82: only a `CONSTRUCT` of a precision from 7 to 18 brings a Sketch into existence. -/
def Obligations.OnlyConstructCreatesASketch : Prop :=
  ∀ s t : State, s.sketch = none → step s = .next t → t.sketch ≠ none →
    ∃ (w : Request) (rest : List HostEvent) (arg : Word64), firstReady s s.events = some (.present w, rest)
      ∧ decode w = .instr (.construct arg) ∧ 7 ≤ arg.toInt ∧ arg.toInt ≤ 18

/-! ## CONSTRUCT -/

/-- R3, R5, R6, R7: the constants derived from the precision. -/
def Obligations.DerivedConstantsOfThePrecision : Prop :=
  ∀ p : Nat, 7 ≤ p → p ≤ 18 →
    registerCount p = 2 ^ p ∧ bucketBits p = p ∧ remainderBits p = 64 - p ∧ 46 ≤ remainderBits p
    ∧ remainderBits p ≤ 57 ∧ (remainderMask p).toNat = 2 ^ (64 - p) - 1
    ∧ (∀ j < 64, (remainderMask p).getLsbD j = decide (j < 64 - p))
    ∧ alphaTerm p = 7213 * (2 ^ p : ℚ) ^ 3 / (10 * (1000 * 2 ^ p + 1079))
    ∧ alphaTerm p = (7213 / 10000 : ℚ) / (1 + (1079 / 1000 : ℚ) / 2 ^ p) * (2 ^ p : ℚ) ^ 2

/-- R45, R47: for a precision from 7 to 18 the new Sketch has that precision and exactly `2^precision` registers, all 0;
it is the same whatever Sketch existed before, and only it and the response change. -/
def Obligations.ConstructCreatesAZeroedSketch : Prop :=
  ∀ arg : Word64, 7 ≤ arg.toInt → arg.toInt ≤ 18 →
    ∃ sk : Sketch, (sk.p.toNat : Int) = arg.toInt ∧ sk.registers = List.replicate (2 ^ sk.p.toNat) 0#8 ∧ sk.wf = true
      ∧ ∀ s : State, exec (.construct arg) s = .next { s with
          sketch := some sk, respS := some { status := .ok, info := 0#8, value := 0#64 } }

/-- R46, R48: a precision outside 7 to 18 is answered with the violated bound and the operand, and changes nothing. -/
def Obligations.ConstructOutOfRangeChangesNothing : Prop :=
  ∀ (arg : Word64) (s : State),
    (arg.toInt < 7 → exec (.construct arg) s = .next { s with
      respS := some { status := .rangeError, info := 7#8, value := arg } })
    ∧ (18 < arg.toInt → exec (.construct arg) s = .next { s with
      respS := some { status := .rangeError, info := 18#8, value := arg } })

/-- R18: right after a successful `CONSTRUCT` of each of the twelve precisions, `COUNT` answers `floor(alpha(m) * m)`,
the value the rule lists. -/
def Obligations.CountOfAFreshSketchIsTheBaseline : Prop :=
  ∀ (s : State) (q v : Nat),
    (q, v) ∈ [(7, 91), (8, 183), (9, 368), (10, 737), (11, 1476), (12, 2953), (13, 5908), (14, 11817), (15, 23634),
      (16, 47270), (17, 94541), (18, 189083)] →
    (v : Int) = ⌊alpha (2 ^ q) * 2 ^ q⌋
    ∧ ∃ (t : State) (sk : Sketch), exec (.construct (BitVec.ofNat 64 q)) s = .next t ∧ t.sketch = some sk
      ∧ sk.p.toNat = q ∧ (∀ i < 2 ^ q, sk.read i = 0#8)
      ∧ exec .count t = .next { t with
          respS := some { status := .ok, info := 0#8, value := BitVec.ofNat 64 v } }

/-! ## ADD -/

/-- R50, R51, R22: the bucket index and the remainder are the high `p` and the low `64 - p` bits of the hash value, share
no bit, and together are all of it; the index never leaves the array. -/
def Obligations.HashSplitsIntoBucketAndRemainder : Prop :=
  ∀ (p : Nat) (h : Word64), 7 ≤ p → p ≤ 18 →
    bucketIndex p h < 2 ^ p ∧ (remainder p h).toNat < 2 ^ (64 - p)
    ∧ h.toNat = bucketIndex p h * 2 ^ (64 - p) + (remainder p h).toNat
    ∧ (∀ j < p, (bucketIndex p h).testBit j = h.getLsbD (64 - p + j))
    ∧ ∀ j, (remainder p h).getLsbD j = (h.getLsbD j && decide (j < 64 - p))

/-- R52: the rank of a remainder: the sentinel for 0 at every precision; otherwise the 1-based position of its lowest set
bit, within the remainder; the properties the rule lists. -/
def Obligations.RankIsTheLowestSetBitOrTheSentinel : Prop :=
  ∀ (p : Nat) (w : Word64), 7 ≤ p → p ≤ 18 → w.toNat < 2 ^ (64 - p) →
    (w = 0 → rho w = 64)
    ∧ (w ≠ 0 → 1 ≤ rho w ∧ rho w ≤ 64 - p ∧ w.getLsbD (rho w - 1) = true ∧ ∀ j < rho w - 1, w.getLsbD j = false)
    ∧ (w.getLsbD 0 = true → rho w = 1)
    ∧ ∀ k < 64 - p, rho (BitVec.ofNat 64 (2 ^ k)) = k + 1

/-- R53, R54: with a Sketch in existence `ADD` succeeds for every hash value: the selected register becomes the larger of
its value and the rank, no other register and nothing else changes, and the response carries nothing. -/
def Obligations.AddRaisesTheSelectedRegister : Prop :=
  ∀ (h : Word64) (s : State) (sk : Sketch), s.sketch = some sk →
    ∃ sk' : Sketch,
      exec (.add h) s = .next { s with
        sketch := some sk', respS := some { status := .ok, info := 0#8, value := 0#64 } }
      ∧ sk'.p = sk.p
      ∧ (sk'.read (h.toNat / 2 ^ (64 - sk.p.toNat))).toNat =
          max (sk.read (h.toNat / 2 ^ (64 - sk.p.toNat))).toNat
            (rho (BitVec.ofNat 64 (h.toNat % 2 ^ (64 - sk.p.toNat))))
      ∧ ∀ i, i ≠ h.toNat / 2 ^ (64 - sk.p.toNat) → sk'.read i = sk.read i

/-- R82: without a Sketch `ADD` and `COUNT` are refused with their own opcode and change nothing. -/
def Obligations.AddAndCountNeedASketch : Prop :=
  ∀ s : State, s.sketch = none →
    (∀ h : Word64, exec (.add h) s = .next { s with
      respS := some { status := .notConstructed, info := 0x02#8, value := 0#64 } })
    ∧ exec .count s = .next { s with
      respS := some { status := .notConstructed, info := 0x03#8, value := 0#64 } }

/-- R11, R55: adding a hash value again, at any later time in the lifetime, changes no register: only the response is
given, and `COUNT` answers as it would have without it. -/
def Obligations.ReAddingChangesNoRegister : Prop :=
  ∀ (s t : State) (hashes : List Word64) (h : Word64), s.sketch ≠ none → h ∈ hashes → addAll hashes s = .next t →
    ∃ u : State, exec (.add h) t = .next u
      ∧ u = { t with respS := some { status := .ok, info := 0#8, value := 0#64 } }
      ∧ exec .count u = exec .count t

/-- R56: after any sequence of `ADD`s on a fresh Sketch every register is the maximum of 0 and of the ranks of the hash
values of its bucket. -/
def Obligations.RegisterIsTheLargestRankOfItsBucket : Prop :=
  ∀ (s : State) (q : Nat) (hashes : List Word64), 7 ≤ q → q ≤ 18 → s.sketch = some (Sketch.fresh q) →
    ∃ (t : State) (sk : Sketch), addAll hashes s = .next t ∧ t.sketch = some sk
      ∧ ∀ i, (sk.read i).toNat = maxRank q hashes i

/-- R56: within a lifetime the Sketch after a set of `ADD`s does not depend on their order or multiplicity. -/
def Obligations.AddOrderAndMultiplicityDoNotMatter : Prop :=
  ∀ (s t t' : State) (hashes hashes' : List Word64), s.wf = true → (∀ h, h ∈ hashes ↔ h ∈ hashes') →
    addAll hashes s = .next t → addAll hashes' s = .next t' → t.sketch = t'.sketch

/-- R57: on a fresh Sketch a register ends at 64 exactly when some added hash value selected it with a zero remainder, and
at 0 exactly when none selected it. -/
def Obligations.RegisterTellsTheRanksItSaw : Prop :=
  ∀ (s : State) (q : Nat) (hashes : List Word64), 7 ≤ q → q ≤ 18 → s.sketch = some (Sketch.fresh q) →
    ∃ (t : State) (sk : Sketch), addAll hashes s = .next t ∧ t.sketch = some sk
      ∧ ∀ i, ((sk.read i).toNat = 64 ↔ ∃ h ∈ hashes, bucketIndex q h = i ∧ remainder q h = 0)
        ∧ ((sk.read i).toNat = 0 ↔ ∀ h ∈ hashes, bucketIndex q h ≠ i)

/-! ## COUNT -/

/-- R65, R66, R69: `COUNT` of a good Sketch answers the closed integer form over the sum of all `m` registers, saturated
with `SAT` (the spec's decision, which leaves a model the choice: log entry 9), and changes nothing else. -/
def Obligations.CountAnswersTheClosedForm : Prop :=
  ∀ (s : State) (sk : Sketch), s.sketch = some sk → sk.wf = true →
    let m := 2 ^ sk.p.toNat
    let est := 7213 * m ^ 3 * 2 ^ 63
      / (10 * (1000 * m + 1079) * ∑ i ∈ Finset.range m, 2 ^ (63 - (sk.read i).toNat % 64))
    (est ≤ 2 ^ 63 - 1 → exec .count s = .next { s with
      respS := some { status := .ok, info := 0#8, value := BitVec.ofNat 64 est } })
    ∧ (2 ^ 63 - 1 < est → exec .count s = .next { s with
      respS := some { status := .ok, info := 1#8, value := 0x7FFFFFFFFFFFFFFF#64 } })

/-- R62, R63: the value `COUNT` answers, where it does not saturate, is the positive rational `alphaTerm / Z`, written out
from R7, R60 and R61, truncated and not rounded. -/
def Obligations.CountIsTheTruncatedRationalEstimate : Prop :=
  ∀ (s : State) (sk : Sketch), s.sketch = some sk → sk.wf = true →
    let m : ℚ := 2 ^ sk.p.toNat
    let alphaOfM : ℚ := (7213 / 10000) / (1 + (1079 / 1000) / m)
    let z : ℚ := ∑ i ∈ Finset.range (2 ^ sk.p.toNat), 1 / 2 ^ ((sk.read i).toNat % 64)
    let raw : ℚ := alphaOfM * m ^ 2 / z
    0 < raw
    ∧ (⌊raw⌋ ≤ 2 ^ 63 - 1 → ∃ v : Word64, v.toInt = ⌊raw⌋
      ∧ exec .count s = .next { s with respS := some { status := .ok, info := 0#8, value := v } })

/-- R61: the denominator as a sum over all `m` registers, exactly `Zint / 2^63`, and its bounds. -/
def Obligations.HarmonicSumBounds : Prop :=
  ∀ sk : Sketch, sk.wf = true →
    harmonicSum sk.precision sk.x = ∑ i ∈ Finset.range sk.m, term (sk.read i)
    ∧ zint sk.precision sk.x = ∑ i ∈ Finset.range sk.m, 2 ^ (63 - (sk.read i).toNat % 64)
    ∧ harmonicSum sk.precision sk.x = zint sk.precision sk.x / 2 ^ 63
    ∧ (∀ i, 1 / 2 ^ 63 ≤ term (sk.read i) ∧ term (sk.read i) ≤ 1)
    ∧ 0 < harmonicSum sk.precision sk.x
    ∧ harmonicSum sk.precision sk.x ≤ sk.m
    ∧ (harmonicSum sk.precision sk.x = sk.m ↔ ∀ i < sk.m, sk.read i = 0#8 ∨ sk.read i = 64#8)
    ∧ 2 ^ (2 * sk.precision) / 2 ^ 64 ≤ harmonicSum sk.precision sk.x
    ∧ zint sk.precision sk.x < 2 ^ 82

/-- R66: the answer of `COUNT` is never below the baseline `floor(alpha(m) * m)` and never negative. What it says of a
saturated state, `info` 1 with `2^63 - 1`, rests on the spec's decision, which leaves a model the choice (log entry 9). -/
def Obligations.CountIsNeverBelowTheBaseline : Prop :=
  ∀ (s : State) (sk : Sketch), s.sketch = some sk → sk.wf = true →
    ∃ r : Response, exec .count s = .next { s with respS := some r } ∧ r.status = .ok
      ∧ ⌊alpha sk.m * sk.m⌋ ≤ r.value.toInt ∧ 91 ≤ r.value.toInt ∧ r.value.toInt ≤ 2 ^ 63 - 1
      ∧ (r.info = 0#8 ∨ (r.info = 1#8 ∧ r.value.toInt = 2 ^ 63 - 1))

/-- R60: a register at the sentinel contributes to `COUNT` exactly what an untouched register contributes
(log entry 8). -/
def Obligations.SentinelCountsAsUntouched : Prop :=
  ∀ (s : State) (sk : Sketch) (i : Nat), sk.wf = true → i < sk.m →
    ∃ r : Response,
      exec .count { s with sketch := some { sk with x := sk.x.write i 64#8 } } =
        .next { s with sketch := some { sk with x := sk.x.write i 64#8 }, respS := some r }
      ∧ exec .count { s with sketch := some { sk with x := sk.x.write i 0#8 } } =
        .next { s with sketch := some { sk with x := sk.x.write i 0#8 }, respS := some r }

/-- R68: `COUNT` writes no architectural state and its response depends on the Sketch alone. -/
def Obligations.CountIsAPureRead : Prop :=
  ∀ s t : State, s.sketch = t.sketch →
    ∃ r : Response, exec .count s = .next { s with respS := some r } ∧ exec .count t = .next { t with respS := some r }

/-! ## HASH -/

/-- R70, R72, R75: a digest of at least eight bytes is answered with the `d` field unchanged, which is its first eight
bytes, byte `k` at weight `2^(8k)`; nothing else changes. -/
def Obligations.HashReadsTheDigestLittleEndian : Prop :=
  ∀ (s : State) (dlen : BitVec 16) (d : Word64), 8 ≤ dlen.toNat →
    exec (.hash (.digest dlen d)) s = .next { s with respH := some { status := .ok, info := 0#8, value := d } }
    ∧ d.toNat = ∑ k ∈ Finset.range 8, (d.extractLsb' (8 * k) 8).toNat * 2 ^ (8 * k)

/-- R74, R84, R86: the two failures of `HASH`, with their payloads and no hash value, nothing else changing; it fails for
no other reason. -/
def Obligations.HashFailuresPropagate : Prop :=
  (∀ (s : State) (err : BitVec 32), exec (.hash (.failed err)) s = .next { s with
    respH := some { status := .primFailure, info := 0#8, value := err.setWidth 64 } })
  ∧ (∀ (s : State) (dlen : BitVec 16) (d : Word64), dlen.toNat < 8 → exec (.hash (.digest dlen d)) s = .next { s with
    respH := some { status := .shortDigest, info := 0#8, value := dlen.setWidth 64 } })
  ∧ ∀ (s : State) (dlen : BitVec 16) (d : Word64), 8 ≤ dlen.toNat → exec (.hash (.digest dlen d)) s = .next { s with
    respH := some { status := .ok, info := 0#8, value := d } }

/-- R70, R71, R73: for every primitive and every data, `HASH` of the packed outcome answers what the abstract form says:
the failure's token, the length that was too short, or the first eight bytes read little-endian. -/
def Obligations.HashAnswersForEveryPrimitive : Prop :=
  ∀ (prim : Config.Prim) (data : List Byte) (s : State),
    (∀ err, prim data = .fail err → serve (hashRequest prim data) s = .next { s with
      respH := some { status := .primFailure, info := 0#8, value := err.setWidth 64 } })
    ∧ (∀ digest, prim data = .ok digest → digest.length < 8 → serve (hashRequest prim data) s = .next { s with
      respH := some { status := .shortDigest, info := 0#8, value := BitVec.ofNat 64 digest.length } })
    ∧ (∀ digest, prim data = .ok digest → 8 ≤ digest.length →
      ∃ v : Word64, v.toNat = ∑ k ∈ Finset.range 8, (digest.getD k 0#8).toNat * 2 ^ (8 * k)
        ∧ serve (hashRequest prim data) s = .next { s with
          respH := some { status := .ok, info := 0#8, value := v } })

/-- R75 and 20_memory.md section 4: a `HASH` and a command of port S may be executed in either order with the same
outcome. -/
def Obligations.HashCommutesWithPortS : Prop :=
  ∀ (s : State) (q : AdapterOperand) (i : Instr), i.port = .S →
    ∃ t t' u : State, exec (.hash q) s = .next t ∧ exec i t = .next u ∧ exec i s = .next t' ∧ exec (.hash q) t' = .next u

/-! ## Errors -/

/-- R85: a response that is not `OK` means that its command changed nothing: the state after differs from the state
before in that response alone. -/
def Obligations.ErrorsWriteNoState : Prop :=
  ∀ (w : Request) (s t : State) (r : Response),
    serve w s = .next t → t.resp w.port = some r → r.status ≠ .ok → t = s.setResp w.port (some r)

/-- R80, R81, R84: which command raises which status, and for what cause. -/
def Obligations.EachStatusHasItsCause : Prop :=
  ∀ (w : Request) (s t : State) (r : Response), serve w s = .next t → t.resp w.port = some r →
    (r.status = .rangeError ↔ ∃ arg, decode w = .instr (.construct arg) ∧ (arg.toInt < 7 ∨ 18 < arg.toInt))
    ∧ (r.status = .notConstructed ↔
        s.sketch = none ∧ (decode w = .instr .count ∨ ∃ h, decode w = .instr (.add h)))
    ∧ (r.status = .illegalCommand ↔ ∃ op, decode w = .illegal op)
    ∧ (r.status = .primFailure ↔ ∃ err, decode w = .instr (.hash (.failed err)))
    ∧ (r.status = .shortDigest ↔ ∃ dlen d, decode w = .instr (.hash (.digest dlen d)) ∧ dlen.toNat < 8)

/-- R89: every pair of a state and a word has one response and one next state, and the response is `OK` exactly so: `ADD`
and `COUNT` when a Sketch exists, `CONSTRUCT` for 7 to 18, `HASH` for a digest of at least eight bytes. -/
def Obligations.CommandsSucceedExactlyWhenTheyShould : Prop :=
  ∀ (w : Request) (s : State), ∃ (t : State) (r : Response), serve w s = .next t ∧ t.resp w.port = some r
    ∧ (r.status = .ok ↔
        match decode w with
        | .instr (.construct arg) => 7 ≤ arg.toInt ∧ arg.toInt ≤ 18
        | .instr (.add _) => s.sketch ≠ none
        | .instr .count => s.sketch ≠ none
        | .instr (.hash (.failed _)) => False
        | .instr (.hash (.digest dlen _)) => 8 ≤ dlen.toNat
        | .illegal _ => False)

/-- R89: no command hangs and none is undefined: every step of every state answers a next state. That a step in which
nothing can happen answers one, and that nothing faults, is the model's own (log entry 6, DESIGN CHOICE; log entry 17,
DEDUCED). -/
def Obligations.EveryStepAnswersANextState : Prop :=
  ∀ s : State, StepsOn s

/-! ## The whole machine -/

/-- R25: the response and the architectural state after a command are functions of the word and the architectural state
before it; a command touches nothing but that state and its own port. -/
def Obligations.CommandsAreFunctionsOfWordAndSketch : Prop :=
  ∀ (w : Request) (before : Option Sketch), ∃ (after : Option Sketch) (r : Response), ∀ s : State,
    s.sketch = before → serve w s = .next ({ s with sketch := after }.setResp w.port (some r))

/-- R12, and the table of R4: `COUNT` and `HASH` write no architectural state, and what every command leaves alone: the
other port, and the model's own fields (log entries 3, 4). -/
def Obligations.CommandsLeaveTheRestAlone : Prop :=
  ∀ (i : Instr) (s t : State), exec i s = .next t →
    (i = .count ∨ (∃ q, i = .hash q) → t.sketch = s.sketch)
    ∧ (∀ other, other ≠ i.port → t.resp other = s.resp other)
    ∧ t.events = s.events ∧ t.received = s.received

/-- R2, R9: within one lifetime a step keeps the Sketch in existence and its precision, and lowers no register. -/
def Obligations.RegistersNeverDecreaseInALifetime : Prop :=
  ∀ (s t : State) (sk : Sketch), s.sketch = some sk → step s = .next t →
    (∀ e rest, firstReady s s.events = some (e, rest) → e.inLifetime = true) →
    ∃ sk' : Sketch, t.sketch = some sk' ∧ sk'.p = sk.p ∧ ∀ i, (sk.read i).toNat ≤ (sk'.read i).toNat

/-- R2, R8, R10 and the table of R80: a step keeps the invariant: precision in range, array canonical and within its
`m` cells, register values legal, and every response pending or taken one that R80's table allows on its port.
The canonical form and the record of taken responses are the model's own (log entries 2, 4); that `SAT` comes with
`2^63 - 1` is log entry 9. -/
def Obligations.StepKeepsTheInvariant : Prop :=
  ∀ s t : State, s.Inv = true → step s = .next t → t.Inv = true

/-- The state after reset meets the invariant. -/
def Obligations.ResetMeetsTheInvariant : Prop :=
  State.reset.Inv = true

/-- R8, R10, R22: what the invariant says of the array: exactly `m` registers, each in `0 .. 64-p` or 64, and nothing
held at `m` and above (how the array is written as data: log entry 2). -/
def Obligations.InvariantBoundsEveryRegister : Prop :=
  ∀ (s : State) (sk : Sketch), s.Inv = true → s.sketch = some sk →
    sk.registers.length = 2 ^ sk.p.toNat
    ∧ (∀ b ∈ sk.registers, b.toNat ≤ 64 - sk.p.toNat ∨ b.toNat = 64)
    ∧ ∀ i, 2 ^ sk.p.toNat ≤ i → sk.read i = 0#8

/-! ## The host's side -/

/-- R41: `ADDH` is `HASH` and then, only if that is answered `OK`, `ADD` of its value; a failure of the primitive leaves
the Sketch as it was. The record of taken responses is the model's own field (log entry 4). -/
def Obligations.AddhAddsOnlyWhatTheHashAnswered : Prop :=
  ∀ (prim : Config.Prim) (data : List Byte) (s : State),
    (∀ digest, prim data = .ok digest → 8 ≤ digest.length → ∀ sk, s.sketch = some sk →
      ∃ (t : State) (v : Word64), addh prim data s = .next t
        ∧ v.toNat = ∑ k ∈ Finset.range 8, (digest.getD k 0#8).toNat * 2 ^ (8 * k)
        ∧ t.sketch = some (sk.record v)
        ∧ t.received = s.received ++ [(.H, { status := .ok, info := 0#8, value := v }),
            (.S, { status := .ok, info := 0#8, value := 0#64 })])
    ∧ (∀ err, prim data = .fail err → ∃ t : State, addh prim data s = .next t ∧ t.sketch = s.sketch
        ∧ t.received = s.received ++ [(.H, { status := .primFailure, info := 0#8, value := err.setWidth 64 })])
    ∧ (∀ digest, prim data = .ok digest → digest.length < 8 → ∃ t : State, addh prim data s = .next t
        ∧ t.sketch = s.sketch
        ∧ t.received = s.received ++
            [(.H, { status := .shortDigest, info := 0#8, value := BitVec.ofNat 64 digest.length })])

/-- R40: the words of the assembler's command forms decode to the commands they name; a digest of more than eight bytes
keeps its first eight and its full length, up to 65535 (R37). -/
def Obligations.AssembledFormsDecodeToTheirCommands : Prop :=
  (∀ arg : Word64, (assemble (.construct arg)).map decode = some (.instr (.construct arg)))
  ∧ (∀ h : Word64, (assemble (.add h)).map decode = some (.instr (.add h)))
  ∧ assemble .count = some (.s 0x030000000000000000#72)
  ∧ (assemble .count).map decode = some (.instr .count)
  ∧ (∀ err : BitVec 32, (assemble (.hashFail err)).map decode = some (.instr (.hash (.failed err))))
  ∧ ∀ digest : List Byte, ∃ d : Word64,
      (assemble (.hashDigest digest)).map decode =
        some (.instr (.hash (.digest (BitVec.ofNat 16 (min digest.length 65535)) d)))
      ∧ d.toNat = ∑ k ∈ Finset.range 8, (digest.getD k 0#8).toNat * 2 ^ (8 * k)
end

