-- ==== Sys2Proof/Laws/Memory.lean ====
section
/-!
SUPPORT. The laws of the register array: reading after writing, the canonical form and its uniqueness.
-/

namespace Sys2Proof.Machine

open Config (unlistedRegister)

@[simp] theorem Memory.read_zeroed (i : Nat) : Memory.zeroed.read i = unlistedRegister := rfl

theorem Memory.read_cons (a : Nat) (b : Byte) (rest : Memory) (i : Nat) :
    Memory.read ((a, b) :: rest) i = if i < a then unlistedRegister else if i = a then b else rest.read i := rfl

@[simp] theorem Memory.wfFrom_cons (lo a : Nat) (b : Byte) (rest : Memory) :
    Memory.wfFrom lo ((a, b) :: rest) = true ↔ lo ≤ a ∧ b ≠ unlistedRegister ∧ Memory.wfFrom (a + 1) rest = true := by
  simp [Memory.wfFrom, and_assoc]

theorem Memory.wfFrom_mono {lo lo' : Nat} (h : lo' ≤ lo) {x : Memory} (hx : Memory.wfFrom lo x = true) :
    Memory.wfFrom lo' x = true := by
  cases x with
  | nil => rfl
  | cons c rest =>
    obtain ⟨a, b⟩ := c
    rw [Memory.wfFrom_cons] at hx ⊢
    exact ⟨by omega, hx.2⟩

/-- Below the first index of a canonical array nothing is listed. -/
theorem Memory.read_below {lo : Nat} {x : Memory} (hx : Memory.wfFrom lo x = true) {i : Nat} (hi : i < lo) :
    x.read i = unlistedRegister := by
  cases x with
  | nil => rfl
  | cons c rest =>
    obtain ⟨a, b⟩ := c
    rw [Memory.wfFrom_cons] at hx
    rw [Memory.read_cons, if_pos (by omega)]

theorem Memory.read_list_same (i : Nat) (v : Byte) (x : Memory) (hx : v = unlistedRegister → x.read i = unlistedRegister) :
    (Memory.list i v x).read i = v := by
  unfold Memory.list
  split
  · next h => exact (hx h).trans h.symm
  · simp [Memory.read_cons]

/-- A value other than the unlisted one is read back, in any array. -/
theorem Memory.read_write_same_of_ne {v : Byte} (hv : v ≠ unlistedRegister) (x : Memory) (i : Nat) :
    (x.write i v).read i = v := by
  induction x with
  | nil => exact Memory.read_list_same _ _ _ fun h => absurd h hv
  | cons c rest ih =>
    obtain ⟨a, b⟩ := c
    unfold Memory.write
    split
    · exact Memory.read_list_same _ _ _ fun h => absurd h hv
    · split
      · exact Memory.read_list_same _ _ _ fun h => absurd h hv
      · next h1 h2 => rw [Memory.read_cons, if_neg h1, if_neg h2, ih]

/-- Writing a value other than the unlisted one leaves every other register alone, in any array. -/
theorem Memory.read_write_other_of_ne {v : Byte} (hv : v ≠ unlistedRegister) (x : Memory) {i j : Nat} (hij : j ≠ i) :
    (x.write i v).read j = x.read j := by
  induction x with
  | nil =>
    simp only [Memory.write, Memory.list, if_neg hv, Memory.read_cons, if_neg hij]
    split <;> rfl
  | cons c rest ih =>
    obtain ⟨a, b⟩ := c
    unfold Memory.write
    split
    · next h1 =>
      simp only [Memory.list, if_neg hv, Memory.read_cons i, if_neg hij]
      split
      · rw [Memory.read_cons, if_pos (by omega)]
      · rfl
    · split
      · next h1 h2 =>
        subst h2
        simp only [Memory.list, if_neg hv, Memory.read_cons, if_neg hij]
      · next h1 h2 => rw [Memory.read_cons, Memory.read_cons, ih]

/-- Reading the register just written gives the value written, in a canonical array. -/
theorem Memory.read_write_same {x : Memory} {lo : Nat} (hx : Memory.wfFrom lo x = true) (i : Nat) (v : Byte) :
    (x.write i v).read i = v := by
  induction x generalizing lo with
  | nil => exact Memory.read_list_same _ _ _ fun _ => rfl
  | cons c rest ih =>
    obtain ⟨a, b⟩ := c
    rw [Memory.wfFrom_cons] at hx
    unfold Memory.write
    split
    · next h1 => exact Memory.read_list_same _ _ _ fun _ => by rw [Memory.read_cons, if_pos h1]
    · split
      · next h1 h2 => exact Memory.read_list_same _ _ _ fun _ => Memory.read_below hx.2.2 (by omega)
      · next h1 h2 => rw [Memory.read_cons, if_neg h1, if_neg h2, ih hx.2.2]

/-- A write leaves every other register alone, in a canonical array. -/
theorem Memory.read_write_other {x : Memory} {lo : Nat} (hx : Memory.wfFrom lo x = true) {i j : Nat} (v : Byte)
    (hij : j ≠ i) : (x.write i v).read j = x.read j := by
  by_cases hv : v = unlistedRegister
  · subst hv
    induction x generalizing lo with
    | nil => rfl
    | cons c rest ih =>
      obtain ⟨a, b⟩ := c
      rw [Memory.wfFrom_cons] at hx
      unfold Memory.write
      split
      · simp [Memory.list]
      · split
        · next h1 h2 =>
          subst h2
          simp only [Memory.list, if_pos, Memory.read_cons, if_neg hij]
          split
          · exact Memory.read_below hx.2.2 (by omega)
          · rfl
        · next h1 h2 => rw [Memory.read_cons, Memory.read_cons, ih hx.2.2]
  · exact Memory.read_write_other_of_ne hv x hij

theorem Memory.wfFrom_list {lo i : Nat} (hi : lo ≤ i) (v : Byte) {x : Memory} (hx : Memory.wfFrom (i + 1) x = true) :
    Memory.wfFrom lo (Memory.list i v x) = true := by
  unfold Memory.list
  split
  · exact Memory.wfFrom_mono (by omega) hx
  · next h => exact (Memory.wfFrom_cons _ _ _ _).2 ⟨hi, h, hx⟩

theorem Memory.wfFrom_write {lo i : Nat} (hi : lo ≤ i) (v : Byte) {x : Memory} (hx : Memory.wfFrom lo x = true) :
    Memory.wfFrom lo (x.write i v) = true := by
  induction x generalizing lo with
  | nil => exact Memory.wfFrom_list hi v rfl
  | cons c rest ih =>
    obtain ⟨a, b⟩ := c
    have h := (Memory.wfFrom_cons _ _ _ _).1 hx
    unfold Memory.write
    split
    · next h1 => exact Memory.wfFrom_list hi v ((Memory.wfFrom_cons _ _ _ _).2 ⟨by omega, h.2⟩)
    · split
      · next h1 h2 => subst h2; exact Memory.wfFrom_list hi v h.2.2
      · next h1 h2 => exact (Memory.wfFrom_cons _ _ _ _).2 ⟨h.1, h.2.1, ih (by omega) h.2.2⟩

/-- Every write keeps the canonical form. -/
theorem Memory.wf_write {x : Memory} (hx : x.wf = true) (i : Nat) (v : Byte) : (x.write i v).wf = true :=
  Memory.wfFrom_write (Nat.zero_le i) v hx

@[simp] theorem Memory.wf_zeroed : Memory.zeroed.wf = true := rfl

/-- The max-update keeps the canonical form. -/
theorem Memory.wf_maxUpdate {x : Memory} (hx : x.wf = true) (i rank : Nat) : (x.maxUpdate i rank).wf = true := by
  unfold Memory.maxUpdate
  split
  · exact Memory.wf_write hx i _
  · exact hx

/-- Two canonical arrays that read alike are equal data. -/
theorem Memory.eq_of_read {lo : Nat} {x y : Memory} (hx : Memory.wfFrom lo x = true) (hy : Memory.wfFrom lo y = true)
    (h : ∀ i, x.read i = y.read i) : x = y := by
  induction x generalizing lo y with
  | nil =>
    cases y with
    | nil => rfl
    | cons d rest' =>
      obtain ⟨a', b'⟩ := d
      rw [Memory.wfFrom_cons] at hy
      have := h a'
      simp only [Memory.read_cons, lt_irrefl, if_false, if_true] at this
      exact absurd this.symm hy.2.1
  | cons c rest ih =>
    obtain ⟨a, b⟩ := c
    rw [Memory.wfFrom_cons] at hx
    cases y with
    | nil =>
      have := h a
      simp only [Memory.read_cons, lt_irrefl, if_false, if_true] at this
      exact absurd this hx.2.1
    | cons d rest' =>
      obtain ⟨a', b'⟩ := d
      rw [Memory.wfFrom_cons] at hy
      have haa : a = a' := by
        rcases lt_trichotomy a a' with hlt | heq | hgt
        · have := h a
          simp only [Memory.read_cons, lt_irrefl, if_false, if_true, if_pos hlt] at this
          exact absurd this hx.2.1
        · exact heq
        · have := h a'
          simp only [Memory.read_cons, lt_irrefl, if_false, if_true, if_pos hgt] at this
          exact absurd this.symm hy.2.1
      subst haa
      have hb : b = b' := by simpa [Memory.read_cons] using h a
      subst hb
      refine congrArg _ (ih hx.2.2 hy.2.2 fun i => ?_)
      by_cases hi : i < a + 1
      · rw [Memory.read_below hx.2.2 hi, Memory.read_below hy.2.2 hi]
      · have := h i
        rwa [Memory.read_cons, Memory.read_cons, if_neg (by omega), if_neg (by omega), if_neg (by omega),
          if_neg (by omega)] at this

/-- In a canonical array a listed cell is what its index reads as. -/
theorem Memory.read_of_mem {lo : Nat} {x : Memory} (hx : Memory.wfFrom lo x = true) {c : Host.Cell} (hc : c ∈ x) :
    x.read c.1 = c.2 ∧ lo ≤ c.1 ∧ c.2 ≠ unlistedRegister := by
  induction x generalizing lo with
  | nil => cases hc
  | cons d rest ih =>
    obtain ⟨a, b⟩ := d
    rw [Memory.wfFrom_cons] at hx
    rcases List.mem_cons.1 hc with rfl | hc
    · exact ⟨by simp [Memory.read_cons], hx.1, hx.2.1⟩
    · obtain ⟨h1, h2, h3⟩ := ih hx.2.2 hc
      refine ⟨?_, by omega, h3⟩
      rw [Memory.read_cons, if_neg (by omega), if_neg (by omega), h1]

/-- A register that does not read as the unlisted value is listed. -/
theorem Memory.mem_of_read {x : Memory} {i : Nat} (h : x.read i ≠ unlistedRegister) : (i, x.read i) ∈ x := by
  induction x with
  | nil => exact absurd rfl h
  | cons c rest ih =>
    obtain ⟨a, b⟩ := c
    rw [Memory.read_cons] at h ⊢
    split at h
    · exact absurd rfl h
    · next h1 =>
      rw [if_neg h1]
      split at h
      · next h2 => subst h2; simp
      · next h2 => rw [if_neg h2]; exact List.mem_cons_of_mem _ (ih h)

end Sys2Proof.Machine
end

