-- ==== Sys2Proof/Laws/Operands.lean ====
section
/-!
SUPPORT. What the operand readings and `hash_lz_position_extract` compute, as arithmetic on numbers and single bits.
-/

namespace Sys2Proof.Machine

@[simp] theorem registerCount_eq (p : Nat) : registerCount p = 2 ^ p := rfl

@[simp] theorem remainderBits_eq (p : Nat) : remainderBits p = 64 - p := rfl

theorem registerCount_pos (p : Nat) : 0 < registerCount p := Nat.two_pow_pos p

theorem bucketIndex_eq_div (p : Nat) (h : Word64) : bucketIndex p h = h.toNat / 2 ^ (64 - p) := by
  simp [bucketIndex, BitVec.toNat_ushiftRight, Nat.shiftRight_eq_div_pow]

theorem remainder_toNat (p : Nat) (h : Word64) : (remainder p h).toNat = h.toNat % 2 ^ (64 - p) := by
  have hle : 2 ^ (64 - p) ≤ 2 ^ 64 := Nat.pow_le_pow_right (by decide) (by omega)
  have hpos : 0 < 2 ^ (64 - p) := Nat.two_pow_pos _
  rw [remainder, BitVec.toNat_and, remainderMask, BitVec.toNat_ofNat, remainderBits_eq,
    Nat.mod_eq_of_lt (by omega), Nat.and_two_pow_sub_one_eq_mod]

/-- No access to the register array is out of range (R22). -/
theorem bucketIndex_lt {p : Nat} (hp : p ≤ 64) (h : Word64) : bucketIndex p h < registerCount p := by
  rw [bucketIndex_eq_div, registerCount_eq, Nat.div_lt_iff_lt_mul (Nat.two_pow_pos _), ← pow_add]
  have : p + (64 - p) = 64 := by omega
  rw [this]
  exact h.isLt

/-- The scan stops at the lowest set bit, if one lies within the bits it looks at. -/
theorem trailingZeros_spec (fuel : Nat) (w : Word64) (h : ∃ j < fuel, w.getLsbD j = true) :
    trailingZeros fuel w < fuel ∧ w.getLsbD (trailingZeros fuel w) = true
      ∧ ∀ j < trailingZeros fuel w, w.getLsbD j = false := by
  induction fuel generalizing w with
  | zero => obtain ⟨j, hj, -⟩ := h; omega
  | succ fuel ih =>
    unfold trailingZeros
    split
    · next h0 => exact ⟨by omega, h0, fun j hj => by omega⟩
    · next h0 =>
      obtain ⟨j, hj, hb⟩ := h
      cases j with
      | zero => exact absurd hb h0
      | succ j =>
        obtain ⟨h1, h2, h3⟩ := ih (w >>> 1) ⟨j, by omega, by simpa [BitVec.getLsbD_ushiftRight, Nat.add_comm] using hb⟩
        refine ⟨by omega, by simpa [BitVec.getLsbD_ushiftRight, Nat.add_comm] using h2, fun i hi => ?_⟩
        cases i with
        | zero => simpa using h0
        | succ i => simpa [BitVec.getLsbD_ushiftRight, Nat.add_comm] using h3 i (by omega)

/-- A nonzero word has a set bit. -/
theorem exists_bit_of_ne_zero {w : Word64} (h : w ≠ 0) : ∃ j < 64, w.getLsbD j = true := by
  by_contra hno
  refine h (BitVec.eq_of_getLsbD_eq fun i hi => ?_)
  have : ¬w.getLsbD i = true := fun hb => hno ⟨i, hi, hb⟩
  simpa using this

/-- `ctz` of a nonzero word: the position of the lowest set bit. -/
theorem ctz_spec {w : Word64} (h : w ≠ 0) :
    ctz w < 64 ∧ w.getLsbD (ctz w) = true ∧ ∀ j < ctz w, w.getLsbD j = false :=
  trailingZeros_spec 64 w (exists_bit_of_ne_zero h)

@[simp] theorem rho_zero : rho 0 = 64 := rfl

theorem rho_of_ne_zero {w : Word64} (h : w ≠ 0) : rho w = ctz w + 1 := if_neg h

/-- A rank is never 0 and never above the sentinel. -/
theorem rho_bounds (w : Word64) : 1 ≤ rho w ∧ rho w ≤ 64 := by
  by_cases h : w = 0
  · subst h; decide
  · rw [rho_of_ne_zero h]
    have := (ctz_spec h).1
    omega

/-- A word below `2^n` that is not zero has a rank of at most `n`. -/
theorem rho_le_of_lt {w : Word64} {n : Nat} (hw : w ≠ 0) (hn : w.toNat < 2 ^ n) : rho w ≤ n := by
  rw [rho_of_ne_zero hw]
  by_contra hc
  have hb := (ctz_spec hw).2.1
  have hz : w.toNat < 2 ^ ctz w := lt_of_lt_of_le hn (Nat.pow_le_pow_right (by decide) (by omega))
  rw [BitVec.getLsbD, Nat.testBit_lt_two_pow hz] at hb
  exact Bool.noConfusion hb

/-- The rank of a hash value at precision `p`: within the remainder, or the sentinel (R52). -/
theorem rankOf_legal (p : Nat) (h : Word64) :
    (1 ≤ rankOf p h ∧ rankOf p h ≤ 64 - p) ∨ rankOf p h = 64 := by
  by_cases hw : remainder p h = 0
  · right; rw [rankOf, hw]; rfl
  · refine .inl ⟨(rho_bounds _).1, rho_le_of_lt hw ?_⟩
    rw [remainder_toNat]
    exact Nat.mod_lt _ (Nat.two_pow_pos _)

theorem rankOf_bounds (p : Nat) (h : Word64) : 1 ≤ rankOf p h ∧ rankOf p h ≤ 64 := rho_bounds _

end Sys2Proof.Machine
end

