-- ==== Sys2Proof/Laws/State.lean ====
section
/-!
SUPPORT. One lemma per field of the state per update, so that no later proof unfolds a record update.
-/

namespace Sys2Proof.Machine

@[simp] theorem State.reset_sketch : State.reset.sketch = none := rfl
@[simp] theorem State.reset_respS : State.reset.respS = none := rfl
@[simp] theorem State.reset_respH : State.reset.respH = none := rfl
@[simp] theorem State.reset_events : State.reset.events = [] := rfl
@[simp] theorem State.reset_received : State.reset.received = [] := rfl

@[simp] theorem State.resp_S (s : State) : s.resp .S = s.respS := rfl
@[simp] theorem State.resp_H (s : State) : s.resp .H = s.respH := rfl

@[simp] theorem State.setResp_sketch (s : State) (port : Port) (r : Option Response) :
    (s.setResp port r).sketch = s.sketch := by cases port <;> rfl
@[simp] theorem State.setResp_S_respS (s : State) (r : Option Response) : (s.setResp .S r).respS = r := rfl
@[simp] theorem State.setResp_S_respH (s : State) (r : Option Response) : (s.setResp .S r).respH = s.respH := rfl
@[simp] theorem State.setResp_H_respS (s : State) (r : Option Response) : (s.setResp .H r).respS = s.respS := rfl
@[simp] theorem State.setResp_H_respH (s : State) (r : Option Response) : (s.setResp .H r).respH = r := rfl
@[simp] theorem State.setResp_events (s : State) (port : Port) (r : Option Response) :
    (s.setResp port r).events = s.events := by cases port <;> rfl
@[simp] theorem State.setResp_received (s : State) (port : Port) (r : Option Response) :
    (s.setResp port r).received = s.received := by cases port <;> rfl

theorem State.setResp_resp_same (s : State) (port : Port) (r : Option Response) :
    (s.setResp port r).resp port = r := by cases port <;> rfl

theorem State.setResp_resp_other (s : State) {port other : Port} (r : Option Response) (h : other ≠ port) :
    (s.setResp port r).resp other = s.resp other := by
  cases port <;> cases other <;> first | rfl | exact absurd rfl h

@[simp] theorem State.complete_sketch (s : State) (port : Port) (r : Result) :
    (s.complete port r).sketch = r.sketch := by cases port <;> rfl
@[simp] theorem State.complete_S_respS (s : State) (r : Result) : (s.complete .S r).respS = some r.response := rfl
@[simp] theorem State.complete_S_respH (s : State) (r : Result) : (s.complete .S r).respH = s.respH := rfl
@[simp] theorem State.complete_H_respS (s : State) (r : Result) : (s.complete .H r).respS = s.respS := rfl
@[simp] theorem State.complete_H_respH (s : State) (r : Result) : (s.complete .H r).respH = some r.response := rfl
@[simp] theorem State.complete_events (s : State) (port : Port) (r : Result) :
    (s.complete port r).events = s.events := by cases port <;> rfl
@[simp] theorem State.complete_received (s : State) (port : Port) (r : Result) :
    (s.complete port r).received = s.received := by cases port <;> rfl

theorem State.complete_resp_same (s : State) (port : Port) (r : Result) :
    (s.complete port r).resp port = some r.response := State.setResp_resp_same _ _ _

theorem State.complete_resp_other (s : State) {port other : Port} (r : Result) (h : other ≠ port) :
    (s.complete port r).resp other = s.resp other :=
  (State.setResp_resp_other _ _ h).trans (by cases other <;> rfl)

@[simp] theorem State.take_sketch (s : State) (port : Port) : (s.take port).sketch = s.sketch := by
  unfold State.take; split <;> simp
@[simp] theorem State.take_events (s : State) (port : Port) : (s.take port).events = s.events := by
  unfold State.take; split <;> simp

/-- What taking a response does: nothing if none is pending, else the port is free and the record is one longer. -/
theorem State.take_spec (s : State) (port : Port) :
    (s.resp port = none ∧ s.take port = s) ∨
    ∃ r, s.resp port = some r ∧ (s.take port).resp port = none
      ∧ (s.take port).received = s.received ++ [(port, r)]
      ∧ ∀ other, other ≠ port → (s.take port).resp other = s.resp other := by
  unfold State.take
  cases hr : s.resp port with
  | none => exact .inl ⟨rfl, rfl⟩
  | some r =>
    refine .inr ⟨r, rfl, State.setResp_resp_same _ _ _, by simp, fun other h => ?_⟩
    exact (State.setResp_resp_other _ _ h).trans (by cases other <;> rfl)

@[simp] theorem State.resetEvent_sketch (s : State) : s.resetEvent.sketch = none := rfl
@[simp] theorem State.resetEvent_respS (s : State) : s.resetEvent.respS = none := rfl
@[simp] theorem State.resetEvent_respH (s : State) : s.resetEvent.respH = none := rfl
@[simp] theorem State.resetEvent_events (s : State) : s.resetEvent.events = s.events := rfl
@[simp] theorem State.resetEvent_received (s : State) : s.resetEvent.received = s.received := rfl

@[simp] theorem State.offer_sketch (s : State) (w : Request) : (s.offer w).sketch = s.sketch := by
  simp [State.offer]
@[simp] theorem State.offer_events (s : State) (w : Request) : (s.offer w).events = .present w :: s.events := by
  simp [State.offer]
@[simp] theorem State.offer_received (s : State) (w : Request) : (s.offer w).received = s.received := by
  simp [State.offer]

/-- An offered word's port is free. -/
theorem State.offer_free (s : State) (w : Request) : (s.offer w).free w.port = true := by
  simp [State.free, State.offer, State.setResp_resp_same]

end Sys2Proof.Machine
end

