-- ==== Sys2Proof/Laws/Ops.lean ====
section
/-!
SUPPORT. What the shared operations do: the max-update, recording a hash value, ending a command.
-/

namespace Sys2Proof.Machine

open Config (unlistedRegister)

theorem toNat_ofNat_rank {rank : Nat} (h : rank ≤ 64) : (BitVec.ofNat 8 rank).toNat = rank := by
  rw [BitVec.toNat_ofNat, Nat.mod_eq_of_lt (by omega)]

theorem ofNat_rank_ne {rank : Nat} (h0 : 1 ≤ rank) (h : rank ≤ 64) : BitVec.ofNat 8 rank ≠ unlistedRegister := by
  intro hc
  have := congrArg BitVec.toNat hc
  rw [toNat_ofNat_rank h] at this
  change rank = 0 at this
  omega

/-- The updated register holds the larger of the old value and the rank. -/
theorem Memory.read_maxUpdate_same (x : Memory) (i : Nat) {rank : Nat} (h0 : 1 ≤ rank) (h : rank ≤ 64) :
    ((x.maxUpdate i rank).read i).toNat = max (x.read i).toNat rank := by
  unfold Memory.maxUpdate
  split
  · rw [Memory.read_write_same_of_ne (ofNat_rank_ne h0 h), toNat_ofNat_rank h]; omega
  · omega

/-- No other register changes. -/
theorem Memory.read_maxUpdate_other (x : Memory) {i j : Nat} {rank : Nat} (h0 : 1 ≤ rank) (h : rank ≤ 64) (hij : j ≠ i) :
    (x.maxUpdate i rank).read j = x.read j := by
  unfold Memory.maxUpdate
  split
  · exact Memory.read_write_other_of_ne (ofNat_rank_ne h0 h) x hij
  · rfl

/-- A second update by the same rank writes nothing. -/
theorem Memory.maxUpdate_idem (x : Memory) (i : Nat) {rank : Nat} (h0 : 1 ≤ rank) (h : rank ≤ 64) :
    (x.maxUpdate i rank).maxUpdate i rank = x.maxUpdate i rank := by
  have := Memory.read_maxUpdate_same x i h0 h
  rw [Memory.maxUpdate, if_neg (by omega)]

/-- No register is lowered. -/
theorem Memory.read_le_maxUpdate (x : Memory) (i j : Nat) {rank : Nat} (h0 : 1 ≤ rank) (h : rank ≤ 64) :
    (x.read j).toNat ≤ ((x.maxUpdate i rank).read j).toNat := by
  by_cases hij : j = i
  · subst hij; rw [Memory.read_maxUpdate_same x j h0 h]; omega
  · rw [Memory.read_maxUpdate_other x h0 h hij]

@[simp] theorem Sketch.record_p (sk : Sketch) (h : Word64) : (sk.record h).p = sk.p := rfl
@[simp] theorem Sketch.record_precision (sk : Sketch) (h : Word64) : (sk.record h).precision = sk.precision := rfl
@[simp] theorem Sketch.record_m (sk : Sketch) (h : Word64) : (sk.record h).m = sk.m := rfl

@[simp] theorem Sketch.fresh_x (p : Nat) : (Sketch.fresh p).x = Memory.zeroed := rfl
@[simp] theorem Sketch.fresh_read (p i : Nat) : (Sketch.fresh p).read i = unlistedRegister := rfl

theorem Sketch.fresh_precision {p : Nat} (h : p ≤ 18) : (Sketch.fresh p).precision = p := by
  simp only [Sketch.precision, Sketch.fresh, BitVec.toNat_ofNat]
  omega

/-- What recording a hash value does to every register. -/
theorem Sketch.read_record (sk : Sketch) (h : Word64) (i : Nat) :
    ((sk.record h).read i).toNat =
      if i = bucketIndex sk.precision h then max (sk.read i).toNat (rankOf sk.precision h) else (sk.read i).toNat := by
  have hr := rankOf_bounds sk.precision h
  split
  · next hi => subst hi; exact Memory.read_maxUpdate_same _ _ hr.1 hr.2
  · next hi => exact congrArg BitVec.toNat (Memory.read_maxUpdate_other _ hr.1 hr.2 hi)

@[simp] theorem Sketch.length_registers (sk : Sketch) : sk.registers.length = sk.m := by
  simp [Sketch.registers]

@[simp] theorem raise_sketch (b : Option Sketch) (st : Status) (i : Byte) (v : Word64) : (raise b st i v).sketch = b := rfl
@[simp] theorem raise_status (b : Option Sketch) (st : Status) (i : Byte) (v : Word64) :
    (raise b st i v).response.status = st := rfl
@[simp] theorem raise_info (b : Option Sketch) (st : Status) (i : Byte) (v : Word64) :
    (raise b st i v).response.info = i := rfl
@[simp] theorem raise_value (b : Option Sketch) (st : Status) (i : Byte) (v : Word64) :
    (raise b st i v).response.value = v := rfl

@[simp] theorem respondOk_sketch (b : Option Sketch) (i : Byte) (v : Word64) : (respondOk b i v).sketch = b := rfl
@[simp] theorem respondOk_status (b : Option Sketch) (i : Byte) (v : Word64) :
    (respondOk b i v).response.status = .ok := rfl
@[simp] theorem respondOk_info (b : Option Sketch) (i : Byte) (v : Word64) : (respondOk b i v).response.info = i := rfl
@[simp] theorem respondOk_value (b : Option Sketch) (i : Byte) (v : Word64) : (respondOk b i v).response.value = v := rfl

end Sys2Proof.Machine
end

