-- ==== Sys2Proof/Laws/Commands.lean ====
section
/-!
SUPPORT. One lemma per outcome of each command, so that no later proof unfolds a command.
-/

namespace Sys2Proof.Machine

theorem constructCommand_of_lt {arg : Word64} (h : arg.toInt < 7) (before : Option Sketch) :
    constructCommand arg before = raise before .rangeError 7#8 arg := if_pos h

theorem constructCommand_of_gt {arg : Word64} (h : 18 < arg.toInt) (before : Option Sketch) :
    constructCommand arg before = raise before .rangeError 18#8 arg :=
  (if_neg (show ¬arg.toInt < 7 by omega)).trans (if_pos h)

theorem constructCommand_of_valid {arg : Word64} (h7 : 7 ≤ arg.toInt) (h18 : arg.toInt ≤ 18) (before : Option Sketch) :
    constructCommand arg before = respondOk (some (Sketch.fresh arg.toInt.toNat)) 0#8 0#64 :=
  (if_neg (show ¬arg.toInt < 7 by omega)).trans (if_neg (show ¬18 < arg.toInt by omega))

@[simp] theorem addCommand_none (h : Word64) : addCommand h none = raise none .notConstructed 0x02#8 0#64 := rfl
@[simp] theorem addCommand_some (h : Word64) (sk : Sketch) :
    addCommand h (some sk) = respondOk (some (sk.record h)) 0#8 0#64 := rfl

@[simp] theorem countCommand_none : countCommand none = raise none .notConstructed 0x03#8 0#64 := rfl
@[simp] theorem countCommand_some (sk : Sketch) :
    countCommand (some sk) = respondOk (some sk) (countInfo sk.estimate) (countValue sk.estimate) := rfl

theorem countInfo_of_le {n : Nat} (h : n ≤ 2 ^ 63 - 1) : countInfo n = 0#8 := if_pos (decide_eq_true h)
theorem countInfo_of_gt {n : Nat} (h : 2 ^ 63 - 1 < n) : countInfo n = 1#8 :=
  if_neg fun hc => absurd (of_decide_eq_true hc) (Nat.not_le.2 h)
theorem countValue_of_le {n : Nat} (h : n ≤ 2 ^ 63 - 1) : countValue n = BitVec.ofNat 64 n := if_pos (decide_eq_true h)
theorem countValue_of_gt {n : Nat} (h : 2 ^ 63 - 1 < n) : countValue n = 0x7FFFFFFFFFFFFFFF#64 :=
  if_neg fun hc => absurd (of_decide_eq_true hc) (Nat.not_le.2 h)

@[simp] theorem hashCommand_failed (err : BitVec 32) (before : Option Sketch) :
    hashCommand (.failed err) before = raise before .primFailure 0#8 (err.setWidth 64) := rfl
theorem hashCommand_of_short {dlen : BitVec 16} (h : dlen.toNat < 8) (d : Word64) (before : Option Sketch) :
    hashCommand (.digest dlen d) before = raise before .shortDigest 0#8 (dlen.setWidth 64) := if_pos h
theorem hashCommand_of_long {dlen : BitVec 16} (h : 8 ≤ dlen.toNat) (d : Word64) (before : Option Sketch) :
    hashCommand (.digest dlen d) before = respondOk before 0#8 d := if_neg (Nat.not_lt.2 h)

/-- `HASH` writes no architectural state, whatever it answers. -/
@[simp] theorem hashCommand_sketch (q : AdapterOperand) (before : Option Sketch) :
    (hashCommand q before).sketch = before := by
  cases q with
  | failed err => rfl
  | digest dlen d =>
    rcases Nat.lt_or_ge dlen.toNat 8 with h | h
    · rw [hashCommand_of_short h, raise_sketch]
    · rw [hashCommand_of_long h, respondOk_sketch]

/-- `COUNT` writes no architectural state, whatever it answers. -/
@[simp] theorem countCommand_sketch (before : Option Sketch) : (countCommand before).sketch = before := by
  cases before <;> rfl

end Sys2Proof.Machine
end

