-- ==== Sys2Proof/Laws/Estimator.lean ====
section
/-!
SUPPORT. The sum `COUNT` computes over the listed registers is the sum of R61 over all of them.
-/

namespace Sys2Proof.Machine

open Config (unlistedRegister)

theorem scaledTerm_pos (r : Byte) : 0 < scaledTerm r := Nat.two_pow_pos _

theorem scaledTerm_le (r : Byte) : scaledTerm r ≤ 2 ^ 63 := Nat.pow_le_pow_right (by decide) (by omega)

@[simp] theorem scaledTerm_unlisted : scaledTerm unlistedRegister = 2 ^ 63 := rfl

/-- The sum over the registers from `lo` up to `n` of a canonical array, from its listed cells. -/
theorem sum_scaledTerm_from {lo n : Nat} {x : Memory} (hx : Memory.wfFrom lo x = true) (hn : ∀ c ∈ x, c.1 < n)
    (hlo : lo ≤ n) :
    ∑ i ∈ Finset.Ico lo n, scaledTerm (x.read i) + x.length * 2 ^ 63
      = (n - lo) * 2 ^ 63 + (x.map fun c => scaledTerm c.2).sum := by
  induction x generalizing lo with
  | nil => simp [Memory.read]
  | cons c rest ih =>
    obtain ⟨a, b⟩ := c
    have h := (Memory.wfFrom_cons _ _ _ _).1 hx
    have ha : a < n := hn (a, b) (by simp)
    have ihr := ih h.2.2 (fun c hc => hn c (by simp [hc])) (by omega)
    rw [← Finset.sum_Ico_consecutive _ h.1 (le_of_lt ha), Finset.sum_eq_sum_Ico_succ_bot ha]
    have e1 : ∑ i ∈ Finset.Ico lo a, scaledTerm (Memory.read ((a, b) :: rest) i) = (a - lo) * 2 ^ 63 := by
      rw [Finset.sum_congr rfl (g := fun _ => 2 ^ 63) fun i hi => by
        rw [Memory.read_cons, if_pos (Finset.mem_Ico.1 hi).2, scaledTerm_unlisted]]
      simp
    have e2 : ∑ i ∈ Finset.Ico (a + 1) n, scaledTerm (Memory.read ((a, b) :: rest) i)
        = ∑ i ∈ Finset.Ico (a + 1) n, scaledTerm (Memory.read rest i) := by
      refine Finset.sum_congr rfl fun i hi => ?_
      have := (Finset.mem_Ico.1 hi).1
      rw [Memory.read_cons, if_neg (by omega), if_neg (by omega)]
    have e3 : Memory.read ((a, b) :: rest) a = b := by simp [Memory.read_cons]
    rw [e1, e2, e3]
    simp only [List.length_cons, List.map_cons, List.sum_cons]
    obtain ⟨k, rfl⟩ : ∃ k, n = a + 1 + k := ⟨n - (a + 1), by omega⟩
    have k1 : a + 1 + k - lo = (a - lo) + 1 + k := by omega
    have k2 : a + 1 + k - (a + 1) = k := by omega
    rw [k1]
    rw [k2] at ihr
    linarith

/-- A canonical array lists at most as many cells as there are indexes. -/
theorem Memory.length_le {lo n : Nat} {x : Memory} (hx : Memory.wfFrom lo x = true) (hn : ∀ c ∈ x, c.1 < n) :
    x.length ≤ n - lo := by
  induction x generalizing lo with
  | nil => simp
  | cons c rest ih =>
    obtain ⟨a, b⟩ := c
    have h := (Memory.wfFrom_cons _ _ _ _).1 hx
    have := hn (a, b) (by simp)
    have := ih h.2.2 fun c hc => hn c (by simp [hc])
    simp only [List.length_cons]
    omega

/-- `COUNT`'s sum over the listed cells is R61's sum over all registers. -/
theorem zint_eq_zintOverAll {p : Nat} {x : Memory} (hx : x.wf = true) (hn : ∀ c ∈ x, c.1 < registerCount p) :
    zint p x = zintOverAll p x := by
  have h := sum_scaledTerm_from hx hn (Nat.zero_le _)
  have hl := Memory.length_le hx hn
  rw [Nat.sub_zero] at h hl
  rw [← Finset.range_eq_Ico] at h
  unfold zint zintOverAll
  rw [scaledTerm_unlisted, Nat.sub_mul]
  have : x.length * 2 ^ 63 ≤ registerCount p * 2 ^ 63 := Nat.mul_le_mul_right _ hl
  omega

end Sys2Proof.Machine
end

