-- ==== Sys2Proof/Laws/PerInstr.lean ====
section
/-!
SUPPORT. Statements made of every instruction as syntax, one lemma per constructor.
-/

namespace Sys2Proof.Laws.EncodedPort

/-- The encoder puts an instruction on the port it belongs to (R31, R34, R37). -/
def Statement (i : Instr) : Prop := (encode i).port = i.port

theorem construct (arg : Word64) : Statement (.construct arg) := rfl

theorem add (hashValue : Word64) : Statement (.add hashValue) := rfl

theorem count : Statement .count := rfl

theorem hash (q : AdapterOperand) : Statement (.hash q) := by cases q <;> rfl

end Sys2Proof.Laws.EncodedPort
end

