-- ==== Sys2Proof/Laws/Safety.lean ====
section
/-!
SUPPORT. What the invariants say, and that a fresh Sketch and every `ADD` keep the one of the Sketch.
-/

namespace Sys2Proof.Machine

open Config (unlistedRegister)

theorem legalRegister_iff (p : Nat) (b : Byte) : legalRegister p b = true ↔ b.toNat ≤ 64 - p ∨ b.toNat = 64 :=
  decide_eq_true_iff

theorem Sketch.wf_iff (sk : Sketch) :
    sk.wf = true ↔ 7 ≤ sk.precision ∧ sk.precision ≤ 18 ∧ sk.x.wf = true
      ∧ ∀ c ∈ sk.x, c.1 < sk.m ∧ legalRegister sk.precision c.2 = true :=
  decide_eq_true_iff

theorem State.wf_iff (s : State) : s.wf = true ↔ ∀ sk, s.sketch = some sk → sk.wf = true := by
  unfold State.wf
  cases s.sketch with
  | none => simp
  | some sk => simp

theorem State.inv_iff (s : State) :
    s.Inv = true ↔ s.wf = true ∧ (∀ port r, s.resp port = some r → r.legal port = true)
      ∧ ∀ pr ∈ s.received, pr.2.legal pr.1 = true := by
  refine decide_eq_true_iff.trans ⟨fun ⟨hw, hS, hH, hr⟩ => ⟨hw, ?_, hr⟩, fun ⟨hw, hp, hr⟩ => ⟨hw, ?_, ?_, hr⟩⟩
  · intro port r h
    cases port with
    | S => rw [State.resp_S] at h; rw [h] at hS; exact hS
    | H => rw [State.resp_H] at h; rw [h] at hH; exact hH
  · cases h : s.respS with
    | none => rfl
    | some r => exact hp .S r h
  · cases h : s.respH with
    | none => rfl
    | some r => exact hp .H r h

/-- At `m` and above nothing is listed. -/
theorem Sketch.read_of_ge {sk : Sketch} (hw : sk.wf = true) {i : Nat} (hi : sk.m ≤ i) : sk.read i = unlistedRegister := by
  by_contra hne
  have := (((Sketch.wf_iff sk).1 hw).2.2.2 _ (Memory.mem_of_read hne)).1
  exact absurd this (Nat.not_lt.2 hi)

/-- Every register of a good Sketch holds a legal value. -/
theorem Sketch.read_legal {sk : Sketch} (hw : sk.wf = true) (i : Nat) : legalRegister sk.precision (sk.read i) = true := by
  by_cases hne : sk.read i = unlistedRegister
  · rw [hne]; exact (legalRegister_iff _ _).2 (.inl (Nat.zero_le _))
  · exact (((Sketch.wf_iff sk).1 hw).2.2.2 _ (Memory.mem_of_read hne)).2

theorem Sketch.wf_fresh {p : Nat} (h7 : 7 ≤ p) (h18 : p ≤ 18) : (Sketch.fresh p).wf = true := by
  rw [Sketch.wf_iff, Sketch.fresh_precision h18, Sketch.fresh_x]
  exact ⟨h7, h18, rfl, fun c hc => absurd hc List.not_mem_nil⟩

/-- Recording a hash value keeps a good Sketch good. -/
theorem Sketch.wf_record {sk : Sketch} (hw : sk.wf = true) (h : Word64) : (sk.record h).wf = true := by
  obtain ⟨h7, h18, hx, -⟩ := (Sketch.wf_iff sk).1 hw
  have hx' : (sk.record h).x.wf = true := Memory.wf_maxUpdate hx _ _
  refine (Sketch.wf_iff _).2 ⟨h7, h18, hx', fun c hc => ?_⟩
  obtain ⟨hr, -, hne⟩ := Memory.read_of_mem hx' hc
  have hrec := Sketch.read_record sk h c.1
  rw [show (sk.record h).read c.1 = c.2 from hr] at hrec
  have hold := (legalRegister_iff _ _).1 (Sketch.read_legal hw c.1)
  rw [Sketch.record_m, Sketch.record_precision, legalRegister_iff]
  split at hrec
  · next hi =>
    have hrank := rankOf_legal sk.precision h
    exact ⟨hi ▸ bucketIndex_lt (by omega) h, by omega⟩
  · next hi =>
    have hsame : c.2 = sk.read c.1 := BitVec.eq_of_toNat_eq hrec
    refine ⟨?_, by omega⟩
    by_contra hge
    exact hne (hsame.trans (Sketch.read_of_ge hw (Nat.not_lt.1 hge)))

end Sys2Proof.Machine
end

