-- ==== Sys2Proof/Laws/Step.lean ====
section
/-!
SUPPORT. What a step can do, said once: which event it performs, and the one shape every command's outcome has.
-/

namespace Sys2Proof.Machine

/-- The effect of a request word, as a function of the word and of the architectural state alone (R25). -/
def commandResult (w : Request) (before : Option Sketch) : Result :=
  match decode w with
  | .instr (.construct arg) => constructCommand arg before
  | .instr (.add hashValue) => addCommand hashValue before
  | .instr .count => countCommand before
  | .instr (.hash q) => hashCommand q before
  | .illegal op => illegalCommand op before

/-- Every word of port H spells a `HASH`, and no word of port S does. -/
theorem decode_port {w : Request} {i : Instr} (h : decode w = .instr i) : i.port = w.port := by
  cases w with
  | s cw =>
    simp only [decode, decodeS] at h
    split at h
    · cases h; rfl
    · split at h
      · cases h; rfl
      · split at h <;> cases h; rfl
  | h hq =>
    simp only [decode, decodeH] at h
    split at h <;> cases h <;> rfl

/-- Only port S words are rejected. -/
theorem decode_illegal_port {w : Request} {op : Byte} (h : decode w = .illegal op) : w.port = .S := by
  cases w with
  | s cw => rfl
  | h hq => cases h

/-- Serving a word answers a next state: its effect on the architectural state, and its response on its own port. -/
theorem serve_eq (w : Request) (s : State) : serve w s = .next (s.complete w.port (commandResult w s.sketch)) := by
  unfold serve commandResult
  cases hd : decode w with
  | instr i =>
    have hp := decode_port hd
    cases i <;> rw [← hp] <;> rfl
  | illegal op => rw [decode_illegal_port hd]; rfl

/-- Everything a host event can do. -/
theorem perform_cases (e : HostEvent) (s : State) :
    (∃ w, e = .present w ∧ perform e s = .next (s.complete w.port (commandResult w s.sketch)))
    ∨ (∃ port, e = .take port ∧ perform e s = .next (s.take port))
    ∨ ((e = .reset ∨ ∃ w, e = .resetDuring w) ∧ perform e s = .next s.resetEvent) := by
  cases e with
  | present w => exact .inl ⟨w, rfl, serve_eq w s⟩
  | take port => exact .inr (.inl ⟨port, rfl, rfl⟩)
  | reset => exact .inr (.inr ⟨.inl rfl, rfl⟩)
  | resetDuring w => exact .inr (.inr ⟨.inr ⟨w, rfl⟩, rfl⟩)

/-- A head event that is ready is the one that happens. -/
theorem firstReady_cons_of_ready {s : State} {e : HostEvent} (h : e.ready s = true) (rest : List HostEvent) :
    firstReady s (e :: rest) = some (e, rest) := by
  rw [firstReady, if_pos h]

/-- An event that is not ready waits. -/
theorem firstReady_cons_of_not_ready {s : State} {e : HostEvent} (h : e.ready s = false) (rest : List HostEvent) :
    firstReady s (e :: rest) = (firstReady s rest).map fun q => (q.1, e :: q.2) := by
  rw [firstReady, if_neg (by simp [h])]
  cases firstReady s rest <;> rfl

/-- What `firstReady` finds: a ready event with only waiting events before it. -/
theorem firstReady_some {s : State} {events rest : List HostEvent} {e : HostEvent}
    (h : firstReady s events = some (e, rest)) :
    ∃ before after, events = before ++ e :: after ∧ rest = before ++ after ∧ e.ready s = true
      ∧ ∀ b ∈ before, b.ready s = false := by
  induction events generalizing rest with
  | nil => cases h
  | cons d ds ih =>
    by_cases hd : d.ready s = true
    · rw [firstReady_cons_of_ready hd] at h
      cases h
      exact ⟨[], ds, rfl, rfl, hd, by simp⟩
    · rw [firstReady_cons_of_not_ready (by simpa using hd)] at h
      cases hf : firstReady s ds with
      | none => rw [hf] at h; cases h
      | some q =>
        rw [hf] at h
        obtain ⟨e', rest'⟩ := q
        cases h
        obtain ⟨before, after, h1, h2, h3, h4⟩ := ih hf
        refine ⟨d :: before, after, by simp [h1], by simp [h2], h3, fun b hb => ?_⟩
        rcases List.mem_cons.1 hb with rfl | hb
        · simpa using hd
        · exact h4 b hb

/-- Everything a step can do: wait, or perform the first ready event. -/
theorem step_cases (s : State) :
    (firstReady s s.events = none ∧ step s = .next s)
    ∨ ∃ e rest, firstReady s s.events = some (e, rest) ∧ step s = perform e { s with events := rest } := by
  unfold step
  cases firstReady s s.events with
  | none => exact .inl ⟨rfl, rfl⟩
  | some q => exact .inr ⟨q.1, q.2, rfl, rfl⟩

end Sys2Proof.Machine
end

