-- ==== Sys2Proof/Laws/Words.lean ====
section
/-!
SUPPORT. The fields of the words built from fields, bit by bit and whole (R32, R33, R37).
-/

namespace Sys2Proof

theorem getLsbD_commandWord (op : Byte) (arg : Word64) (i : Nat) :
    (commandWord op arg).getLsbD i = if i < 64 then arg.getLsbD i else op.getLsbD (i - 64) := by
  refine (BitVec.getLsbD_append (x := op) (y := arg) (i := i)).trans ?_
  split <;> rfl

theorem getLsbD_adapterWord (fail : BitVec 1) (err : BitVec 32) (dlen : BitVec 16) (d : Word64) (i : Nat) :
    (adapterWord fail err dlen d).getLsbD i =
      if i < 64 then d.getLsbD i
      else if i - 64 < 16 then dlen.getLsbD (i - 64)
      else if i - 64 - 16 < 32 then err.getLsbD (i - 64 - 16)
      else fail.getLsbD (i - 64 - 16 - 32) := by
  refine (BitVec.getLsbD_append (x := fail ++ err ++ dlen) (y := d) (i := i)).trans ?_
  rw [BitVec.getLsbD_append, BitVec.getLsbD_append]

@[simp] theorem opField_commandWord (op : Byte) (arg : Word64) : opField (commandWord op arg) = op := by
  refine BitVec.eq_of_getLsbD_eq fun j hj => ?_
  rw [opField, BitVec.getLsbD_extractLsb', getLsbD_commandWord, if_neg (by omega)]
  simp [hj]

@[simp] theorem argField_commandWord (op : Byte) (arg : Word64) : argField (commandWord op arg) = arg := by
  refine BitVec.eq_of_getLsbD_eq fun j hj => ?_
  rw [argField, BitVec.getLsbD_extractLsb', getLsbD_commandWord, if_pos (by omega)]
  simp [hj]

@[simp] theorem failField_adapterWord (fail : BitVec 1) (err : BitVec 32) (dlen : BitVec 16) (d : Word64) :
    failField (adapterWord fail err dlen d) = fail := by
  refine BitVec.eq_of_getLsbD_eq fun j hj => ?_
  rw [failField, BitVec.getLsbD_extractLsb', getLsbD_adapterWord, if_neg (by omega), if_neg (by omega),
    if_neg (by omega), show 112 + j - 64 - 16 - 32 = j by omega]
  simp [hj]

@[simp] theorem errField_adapterWord (fail : BitVec 1) (err : BitVec 32) (dlen : BitVec 16) (d : Word64) :
    errField (adapterWord fail err dlen d) = err := by
  refine BitVec.eq_of_getLsbD_eq fun j hj => ?_
  rw [errField, BitVec.getLsbD_extractLsb', getLsbD_adapterWord, if_neg (by omega), if_neg (by omega),
    if_pos (by omega), show 80 + j - 64 - 16 = j by omega]
  simp [hj]

@[simp] theorem dlenField_adapterWord (fail : BitVec 1) (err : BitVec 32) (dlen : BitVec 16) (d : Word64) :
    dlenField (adapterWord fail err dlen d) = dlen := by
  refine BitVec.eq_of_getLsbD_eq fun j hj => ?_
  rw [dlenField, BitVec.getLsbD_extractLsb', getLsbD_adapterWord, if_neg (by omega), if_pos (by omega),
    show 64 + j - 64 = j by omega]
  simp [hj]

@[simp] theorem dField_adapterWord (fail : BitVec 1) (err : BitVec 32) (dlen : BitVec 16) (d : Word64) :
    dField (adapterWord fail err dlen d) = d := by
  refine BitVec.eq_of_getLsbD_eq fun j hj => ?_
  rw [dField, BitVec.getLsbD_extractLsb', getLsbD_adapterWord, if_pos (by omega)]
  simp [hj]

/-- The bits of `d` that the digest reaches, the others 0. -/
theorem getLsbD_reachedLanes (dlen : BitVec 16) (d : Word64) {j : Nat} (hj : j < 64) :
    (reachedLanes dlen d).getLsbD j = (d.getLsbD j && decide (j < 8 * dlen.toNat)) := by
  unfold reachedLanes
  split
  · next h =>
    change 8 ≤ dlen.toNat at h
    have : j < 8 * dlen.toNat := by omega
    simp [this]
  · rw [BitVec.getLsbD_ofNat, Nat.testBit_mod_two_pow, decide_eq_true hj, Bool.true_and, Bool.and_comm]
    rfl

/-- The bits of a response word. -/
theorem Machine.getLsbD_toWord (r : Machine.Response) (i : Nat) :
    r.toWord.getLsbD i =
      if i < 64 then r.value.getLsbD i
      else if i - 64 < 8 then r.info.getLsbD (i - 64)
      else r.status.code.getLsbD (i - 64 - 8) := by
  refine (BitVec.getLsbD_append (x := r.status.code ++ r.info) (y := r.value) (i := i)).trans ?_
  rw [BitVec.getLsbD_append]

end Sys2Proof
end

