-- ==== Sys2Proof/Tests/Slice0.lean ====
section
/-!
SUPPORT. Tests: the encodings of the spec's test vectors, the smoke test of WellFormed, single commands on small states
(expected results from 95_test_vectors.md), and a witness for the hypotheses of each statement.
-/

namespace Sys2Proof.Tests

open Sys2Proof.Machine

/-- The state with this architectural state and nothing else. -/
def withSketch (sk : Option Sketch) : State := { State.reset with sketch := sk }

/-- What a served word leaves: the architectural state, and the response word on the word's port. -/
def served (w : Request) (sk : Option Sketch) : Option (Option Sketch × Option ResponseWord) :=
  match serve w (withSketch sk) with
  | .next t => some (t.sketch, (t.resp w.port).map Response.toWord)
  | .fault _ => none
  | .refused _ => none

/-- A Sketch with one register raised. -/
def oneRegister (p : Nat) (i : Nat) (v : Byte) : Sketch := { p := BitVec.ofNat 5 p, x := [(i, v)] }

/-- The `n` registers from `lo` on at 57. -/
def full : Nat → Nat → Memory
  | _, 0 => []
  | lo, n + 1 => (lo, 57#8) :: full (lo + 1) n

/-- 95_test_vectors.md section 2.3: all 128 registers of precision 7 at 57. -/
def saturated : Sketch := { p := 7#5, x := full 0 128 }

theorem full_wfFrom (lo n : Nat) : Memory.wfFrom lo (full lo n) = true := by
  induction n generalizing lo with
  | zero => rfl
  | succ n ih => exact (Memory.wfFrom_cons _ _ _ _).2 ⟨le_rfl, by decide, ih (lo + 1)⟩

theorem mem_full {lo n : Nat} {c : Host.Cell} (h : c ∈ full lo n) : c.1 < lo + n ∧ c.2 = 57#8 := by
  induction n generalizing lo with
  | zero => cases h
  | succ n ih =>
    rcases List.mem_cons.1 h with rfl | h
    · exact ⟨by simp, rfl⟩
    · exact ⟨by have := (ih h).1; omega, (ih h).2⟩

theorem full_sums (lo n : Nat) : (full lo n).length = n ∧ ((full lo n).map fun c => scaledTerm c.2).sum = n * 64 := by
  induction n generalizing lo with
  | zero => exact ⟨rfl, rfl⟩
  | succ n ih =>
    refine ⟨congrArg (· + 1) (ih (lo + 1)).1, ?_⟩
    rw [full, List.map_cons, List.sum_cons, (ih (lo + 1)).2, show scaledTerm 57#8 = 64 from rfl]
    omega

theorem saturated_wf : saturated.wf = true :=
  (Sketch.wf_iff _).2 ⟨by decide, by decide, full_wfFrom 0 128, fun c h =>
    ⟨by rw [show saturated.m = 0 + 128 from rfl]; exact (mem_full h).1, by rw [(mem_full h).2]; decide⟩⟩

theorem saturated_zint : zint 7 saturated.x = 2 ^ 13 := by
  rw [zint, saturated, (full_sums 0 128).1, (full_sums 0 128).2]
  decide

/-- A response to have pending. -/
def someResponse : Response := { status := .ok, info := 0#8, value := 0#64 }

/-! ## WellFormed and the decoder -/

/-- A digest of seven bytes cannot hold an eighth. -/
theorem test_wf_refuses_unreached_lane : (Instr.hash (.digest 7#16 0x0107060504030201#64)).wf = false := by decide

/-- 40_construct.md R45: `0x01` in bits 71:64, the operand below. -/
theorem test_decode_construct :
    decode (.s 0b000000010000000000000000000000000000000000000000000000000000000000010010#72)
      = .instr (.construct 18#64) := by decide

/-- 95 section 1.2: `ADD 9999999999999999999`. -/
theorem test_decode_add : decode (.s 0x028AC7230489E7FFFF#72) = .instr (.add 0x8AC7230489E7FFFF#64) := by decide

/-- 95 section 2.3: `COUNT` ignores `arg`. -/
theorem test_decode_count : decode (.s 0x0300000000DEADBEEF#72) = .instr .count := by decide

/-- 95 section 2.4: `dlen = 3`, arbitrary bits in lanes 3 to 7. -/
theorem test_decode_hash_short :
    decode (.h 0x0000000000003AABBCCDDEE030201#113) = .instr (.hash (.digest 3#16 0x030201#64)) := by decide

/-- 95 section 2.4: `fail = 1`, `err = 1`, the other fields arbitrary. -/
theorem test_decode_hash_failed :
    decode (.h 0x10000000100141122334455667788#113) = .instr (.hash (.failed 1#32)) := by decide

/-- 95 section 2.5: the reserved opcodes beside the three that decode. -/
theorem test_decode_reserved :
    decode (.s 0x000000000000000000#72) = .illegal 0x00#8 ∧ decode (.s 0x040000000000000007#72) = .illegal 0x04#8
      ∧ decode (.s 0xFFFFFFFFFFFFFFFFFF#72) = .illegal 0xFF#8 := by decide

/-! ## Single commands -/

/-- 95 section 2.1: the low byte of 263 is 7, but the whole operand counts. -/
theorem test_construct_whole_operand :
    served (.s 0x010000000000000107#72) none = some (none, some 0x01120000000000000107#80) := by decide

/-- 95 section 2.1: a negative precision fails against the lower bound, and an existing Sketch survives. -/
theorem test_construct_negative :
    served (.s 0x01FFFFFFFFFFFFFFFF#72) (some (oneRegister 10 1 54#8))
      = some (some (oneRegister 10 1 54#8), some 0x0107FFFFFFFFFFFFFFFF#80) := by decide

/-- 95 section 2.2: `p = 7`, `0x0300000000000000`: bucket 1, rank 57. -/
theorem test_add_largest_rank :
    served (.s 0x020300000000000000#72) (some (Sketch.fresh 7))
      = some (some (oneRegister 7 1 57#8), some 0x00000000000000000000#80) := by decide

/-- 95 program P2, command 10: 57 is not larger than the sentinel. -/
theorem test_add_keeps_sentinel :
    served (.s 0x020300000000000000#72) (some (oneRegister 7 1 64#8))
      = some (some (oneRegister 7 1 64#8), some 0x00000000000000000000#80) := by decide

/-- DOC0's pinned values (95 section 1.2): `Add(4)` then `Count` is 189084, `Add(0)` then `Count` is 189083. -/
theorem test_count_pinned :
    served (.s 0x030000000000000000#72) (some ((Sketch.fresh 18).record 4#64))
        = some (some ((Sketch.fresh 18).record 4#64), some 0x0000000000000002E29C#80)
      ∧ served (.s 0x030000000000000000#72) (some ((Sketch.fresh 18).record 0#64))
        = some (some ((Sketch.fresh 18).record 0#64), some 0x0000000000000002E29B#80) := by decide

/-- 95 section 2.3: the saturated row, its `SAT` and its clipped value. -/
theorem test_count_saturates :
    countInfo saturated.estimate = 1#8 ∧ countValue saturated.estimate = 0x7FFFFFFFFFFFFFFF#64
      ∧ saturated.estimate = 13194411732713590485 := by
  have h : saturated.estimate = 13194411732713590485 := by
    rw [Sketch.estimate, show saturated.precision = 7 from rfl, estimate, saturated_zint]
    decide
  rw [h]
  decide

/-- 95 section 1.4: DOC0's pinned MD5 value. -/
theorem test_hash_pinned :
    served (.h 0x0000000000010E74044E405DCEEA6#113) none = some (none, some 0x0000E74044E405DCEEA6#80) := by decide

/-- 95 section 2.4: seven bytes are too few. -/
theorem test_hash_short :
    served (.h 0x00000000000070007060504030201#113) none = some (none, some 0x11000000000000000007#80) := by decide

/-- 95 section 2.5: `ILLEGAL_COMMAND` comes before any look at the state. -/
theorem test_illegal : served (.s 0x040000000000000000#72) none = some (none, some 0x03040000000000000000#80) := by decide

/-- A word placed in the reset state is what the first step runs: 95 program P3, command 0. -/
theorem test_first_step_after_reset :
    (match step (State.reset.withFetchWord 72 0x020000000000000005) with
      | .next t => t.respS.map Response.toWord
      | .fault _ => none
      | .refused _ => none) = some 0x02020000000000000000#80 := by decide

/-! ## The host's side -/

/-- 95 section 2.4: the packing of a ten-byte digest. -/
theorem test_pack_long_digest :
    packOutcome (.ok [0x01, 0x02, 0x03, 0x04, 0x05, 0x06, 0x07, 0x08, 0x09, 0x0A]) = 0x000000000000A0807060504030201#113 := by
  decide

/-- 30_encoding.md R40: lines of the test vectors. -/
theorem test_parse_construct :
    parseLine "CONSTRUCT -1 ; below the lower bound".toList
      = some (.command (.construct 0xFFFFFFFFFFFFFFFF#64)) := by decide

theorem test_parse_hash :
    parseLine "HASH digest=01020304050607".toList
      = some (.command (.hashDigest [0x01, 0x02, 0x03, 0x04, 0x05, 0x06, 0x07])) := by decide

theorem test_parse_expect :
    parseLine "-> RANGE_ERROR info=7 value=2".toList = some (.expect .rangeError (some 7) (some 2)) := by decide

/-- R71 allows data of length 0; its spelling is log entry 14. The digits of R41's bytes are read in order. -/
theorem test_parse_addh :
    parseLine "ADDH md5 B4e6".toList = some (.command (.addh "md5".toList [0xB4, 0xE6]))
      ∧ parseLine "ADDH md5".toList = some (.command (.addh "md5".toList [])) := by decide

theorem test_parse_rejects : parseLine "count".toList = none ∧ parseLine "ADD -1".toList = none := by decide

/-! ## Witnesses: concrete states and operands that meet the hypotheses of the statements -/

theorem witness_DecodeOfEncodeGivesTheInstruction :
    (Instr.construct 0xFFFFFFFFFFFFFFFF#64).wf = true ∧ (Instr.hash (.digest 7#16 0x07060504030201#64)).wf = true
      ∧ (Instr.hash (.digest 8#16 0xFFFFFFFFFFFFFFFF#64)).wf = true ∧ (Instr.hash (.digest 0#16 0#64)).wf = true := by
  decide

theorem witness_EveryWordReadsAsItsAssembledWord :
    decode (.h 0x0FFFFFFFF0003AABBCCDDEE030201#113) = .instr (.hash (.digest 3#16 0x030201#64)) := by decide

theorem witness_PortSWordsFollowTheOpcodeMap :
    0x01FFFFFFFFFFFFFFFF#72 &&& 0xFF0000000000000000#72 = 0x010000000000000000#72
      ∧ 0x02FFFFFFFFFFFFFFFF#72 &&& 0xFF0000000000000000#72 = 0x020000000000000000#72
      ∧ 0x03FFFFFFFFFFFFFFFF#72 &&& 0xFF0000000000000000#72 = 0x030000000000000000#72
      ∧ (0x00FFFFFFFFFFFFFFFF#72 >>> 64).setWidth 8 = 0x00#8
      ∧ 0x04 ≤ ((0x040000000000000000#72 >>> 64).setWidth 8 : Byte).toNat
      ∧ 0x04 ≤ ((0xFF0000000000000000#72 >>> 64).setWidth 8 : Byte).toNat := by decide

theorem witness_PortHWordsReadTheirFields :
    (0x1DEADBEEF00000000000000000000#113).getLsbD 112 = true
      ∧ (0x0000000000003AABBCCDDEE030201#113).getLsbD 112 = false := by decide

theorem witness_DontCareFieldsAreNotRead :
    ((0x00#8 : Byte) = 0x00#8 ∧ 0x04 ≤ (0x04#8 : Byte).toNat)
      ∧ ∀ j < 64, j < 8 * (3#16).toNat → (0xAABBCCDDEE030201#64).getLsbD j = (0x030201#64).getLsbD j := by decide

/-- One event that cannot happen before the word; a word for each of the two clauses. -/
theorem witness_StepRunsThePresentedCommand :
    (∀ e ∈ [HostEvent.take .H], e.ready (withSketch none) = false) ∧ (withSketch none).free .S = true
      ∧ decode (.s 0x010000000000000007#72) = .instr (.construct 7#64)
      ∧ decode (.s 0x040000000000000007#72) = .illegal 0x04#8 := by decide

theorem witness_PlacedWordRunsNext :
    decodeTableWord 72 0x020000000000000005 = some (.add 5#64)
      ∧ decodeTableWord 120 0 = some (.hash (.digest 0#16 0#64)) := by decide

theorem witness_ReservedOpcodeIsAnsweredIllegalCommand :
    ((0x00#8 : Byte) = 0x00#8 ∧ 0x04 ≤ (0x04#8 : Byte).toNat ∧ 0x04 ≤ (0xFF#8 : Byte).toNat)
      ∧ ∃ (t : State) (r : Response), serve (.h 0#113) State.reset = .next t ∧ t.respH = some r :=
  ⟨by decide, _, _, rfl, rfl⟩

/-- Port S busy, and a word waiting at it. -/
def waiting : State :=
  { State.reset with respS := some someResponse, events := [.present (.s 0x030000000000000000#72)] }

theorem witness_WordsWaitForTheirPort :
    ∀ e ∈ waiting.events, ∃ w, e = .present w ∧ (waiting.resp w.port).isSome = true := by
  intro e he
  exact ⟨_, List.mem_singleton.1 he, rfl⟩

theorem witness_WaitingWordIsPassedOver :
    waiting.events = .present (.s 0x030000000000000000#72) :: [] ∧ (waiting.resp .S).isSome = true
      ∧ ∃ t, step { waiting with events := [] } = .next t := ⟨rfl, rfl, _, rfl⟩

theorem witness_HostTakesTheResponse :
    { waiting with events := [.take .S] }.events = .take .S :: [] ∧ waiting.resp .S = some someResponse := by decide

theorem witness_ResetEventClearsTheEngine :
    { withSketch (some saturated) with events := [.reset] }.events = .reset :: [] := rfl

theorem witness_ResetAbandonsTheCommand :
    (withSketch (some saturated)).resp (Request.s 0x020000000000000000#72).port = none := rfl

theorem witness_WordsOfAPortKeepTheirOrder :
    firstReady { waiting with respS := none } waiting.events = some (.present (.s 0x030000000000000000#72), []) := by
  decide

theorem witness_OnlyConstructCreatesASketch :
    ∃ s t : State, s.sketch = none ∧ step s = .next t ∧ t.sketch ≠ none :=
  ⟨State.reset.withFetchWord 72 0x010000000000000007, _, rfl, rfl, by decide⟩

theorem witness_ConstructCreatesAZeroedSketch :
    7 ≤ (7#64).toInt ∧ (7#64).toInt ≤ 18 ∧ 7 ≤ (18#64).toInt ∧ (18#64).toInt ≤ 18 := by decide

theorem witness_ConstructOutOfRangeChangesNothing :
    (6#64).toInt < 7 ∧ (0x8000000000000000#64).toInt < 7 ∧ 18 < (19#64).toInt ∧ 18 < (0x7FFFFFFFFFFFFFFF#64).toInt := by
  decide

theorem witness_CountOfAFreshSketchIsTheBaseline :
    (18, 189083) ∈ [(7, 91), (8, 183), (9, 368), (10, 737), (11, 1476), (12, 2953), (13, 5908), (14, 11817), (15, 23634),
      (16, 47270), (17, 94541), (18, 189083)] := by decide

/-- For the statements over a precision and a remainder (DerivedConstantsOfThePrecision, HashSplitsIntoBucketAndRemainder,
RankIsTheLowestSetBitOrTheSentinel): both ends of the range, a remainder for each clause. -/
theorem witness_precision_range :
    7 ≤ 7 ∧ 7 ≤ 18 ∧ 18 ≤ 18 ∧ (0#64 : Word64).toNat < 2 ^ (64 - 18) ∧ (0x200000000000#64 : Word64).toNat < 2 ^ (64 - 18)
      ∧ (0x200000000000#64 : Word64) ≠ 0 ∧ (0x3FFFFFFFFFFF#64 : Word64).getLsbD 0 = true ∧ 45 < 64 - 18 := by decide

/-- Also for the statements about a fresh Sketch of precision 7 (RegisterIsTheLargestRankOfItsBucket,
RegisterTellsTheRanksItSaw). -/
theorem witness_AddRaisesTheSelectedRegister : (withSketch (some (Sketch.fresh 7))).sketch = some (Sketch.fresh 7) := rfl

theorem witness_AddAndCountNeedASketch : State.reset.sketch = none := rfl

theorem witness_ReAddingChangesNoRegister :
    (withSketch (some (Sketch.fresh 7))).sketch ≠ none ∧ 1#64 ∈ [1#64, 4#64]
      ∧ ∃ t, addAll [1#64, 4#64] (withSketch (some (Sketch.fresh 7))) = .next t := ⟨by decide, by decide, _, rfl⟩

theorem witness_AddOrderAndMultiplicityDoNotMatter :
    (withSketch (some (Sketch.fresh 7))).wf = true ∧ (∀ h : Word64, h ∈ [0#64, 1#64] ↔ h ∈ [1#64, 0#64, 1#64])
      ∧ (∃ t, addAll [0#64, 1#64] (withSketch (some (Sketch.fresh 7))) = .next t)
      ∧ ∃ t, addAll [1#64, 0#64, 1#64] (withSketch (some (Sketch.fresh 7))) = .next t :=
  ⟨by decide, fun h => by simp only [List.mem_cons, List.not_mem_nil, or_false]; tauto, ⟨_, rfl⟩, _, rfl⟩

/-- Both clauses: the estimate of a fresh Sketch fits, that of the saturated one does not. -/
theorem witness_CountAnswersTheClosedForm :
    (Sketch.fresh 7).wf = true ∧ zintOverAll 7 (Sketch.fresh 7).x = 2 ^ 70
      ∧ saturated.wf = true ∧ zintOverAll 7 saturated.x = 2 ^ 13
      ∧ 7213 * 128 ^ 3 * 2 ^ 63 / (10 * (1000 * 128 + 1079) * 2 ^ 70) ≤ 2 ^ 63 - 1
      ∧ 2 ^ 63 - 1 < 7213 * 128 ^ 3 * 2 ^ 63 / (10 * (1000 * 128 + 1079) * 2 ^ 13) := by
  have cells : ∀ {sk : Sketch}, sk.wf = true → sk.precision = 7 → zintOverAll 7 sk.x = zint 7 sk.x := by
    intro sk hw hp
    obtain ⟨-, -, hx, hc⟩ := (Sketch.wf_iff sk).1 hw
    refine (zint_eq_zintOverAll hx fun c h => ?_).symm
    have := (hc c h).1
    rwa [Sketch.m, hp] at this
  refine ⟨by decide, ?_, saturated_wf, ?_, by decide, by decide⟩
  · rw [cells (by decide) (by decide)]; decide
  · rw [cells saturated_wf rfl, saturated_zint]

/-- A fresh Sketch of precision 7 is good, and its estimate, 91.55, fits. -/
theorem witness_CountIsTheTruncatedRationalEstimate :
    (Sketch.fresh 7).wf = true
      ∧ ⌊((7213 / 10000 : ℚ) / (1 + (1079 / 1000) / 2 ^ (Sketch.fresh 7).p.toNat)) * (2 ^ (Sketch.fresh 7).p.toNat) ^ 2
          / ∑ i ∈ Finset.range (2 ^ (Sketch.fresh 7).p.toNat), 1 / 2 ^ (((Sketch.fresh 7).read i).toNat % 64)⌋
        ≤ 2 ^ 63 - 1 := by
  refine ⟨by decide, ?_⟩
  have hp : (Sketch.fresh 7).p.toNat = 7 := by decide
  have hr : ∀ i, (Sketch.fresh 7).read i = 0#8 := fun i => rfl
  simp only [hp, hr]
  norm_num [Int.floor_le_iff]

/-- For HarmonicSumBounds, CountIsNeverBelowTheBaseline and SentinelCountsAsUntouched. -/
theorem witness_good_sketches :
    (Sketch.fresh 7).wf = true ∧ (Sketch.fresh 18).wf = true ∧ (oneRegister 7 1 64#8).wf = true
      ∧ (oneRegister 18 262143 46#8).wf = true ∧ 127 < (Sketch.fresh 7).m := by decide

theorem witness_CountIsAPureRead :
    (withSketch (some (Sketch.fresh 7))).sketch = { waiting with sketch := some (Sketch.fresh 7) }.sketch := rfl

/-- For the clauses of HashReadsTheDigestLittleEndian and HashFailuresPropagate. -/
theorem witness_hash_lengths : 8 ≤ (8#16).toNat ∧ 8 ≤ (0xFFFF#16).toNat ∧ (7#16).toNat < 8 ∧ (0#16).toNat < 8 := by
  decide

/-- A primitive with each of the three outcomes. -/
def threeWays : Config.Prim
  | [] => .fail 1#32
  | [_] => .ok [0x01, 0x02, 0x03]
  | _ :: _ :: _ => .ok [0x01, 0x02, 0x03, 0x04, 0x05, 0x06, 0x07, 0x08]

/-- Also for AddhAddsOnlyWhatTheHashAnswered. -/
theorem witness_HashAnswersForEveryPrimitive :
    threeWays [] = .fail 1#32 ∧ threeWays [0x00] = .ok [0x01, 0x02, 0x03]
      ∧ threeWays [0x00, 0x00] = .ok [0x01, 0x02, 0x03, 0x04, 0x05, 0x06, 0x07, 0x08] := by decide

theorem witness_HashCommutesWithPortS : (Instr.add 5#64).port = .S := rfl

/-- Also for EachStatusHasItsCause. -/
theorem witness_ErrorsWriteNoState :
    ∃ (t : State) (r : Response), serve (.s 0x010000000000000014#72) (withSketch (some (Sketch.fresh 10))) = .next t
      ∧ t.resp .S = some r ∧ r.status ≠ .ok := ⟨_, _, rfl, rfl, by decide⟩

theorem witness_CommandsAreFunctionsOfWordAndSketch : waiting.sketch = none := rfl

theorem witness_CommandsLeaveTheRestAlone :
    (∃ t, exec .count (withSketch none) = .next t) ∧ ∃ t, exec (.hash (.failed 0#32)) (withSketch none) = .next t :=
  ⟨⟨_, rfl⟩, _, rfl⟩

theorem witness_RegistersNeverDecreaseInALifetime :
    ∃ s t : State, s.sketch = some (oneRegister 7 0 1#8) ∧ step s = .next t
      ∧ ∀ e rest, firstReady s s.events = some (e, rest) → e.inLifetime = true := by
  refine ⟨(withSketch (some (oneRegister 7 0 1#8))).withFetchWord 72 0x020000000000000004, _, rfl, rfl, ?_⟩
  intro e rest h
  have : firstReady ((withSketch (some (oneRegister 7 0 1#8))).withFetchWord 72 0x020000000000000004)
      ((withSketch (some (oneRegister 7 0 1#8))).withFetchWord 72 0x020000000000000004).events
      = some (.present (.s 0x020000000000000004#72), []) := by decide
  rw [this] at h
  cases h
  decide

theorem witness_StepKeepsTheInvariant :
    ∃ s t : State, s.Inv = true ∧ step s = .next t ∧ t.sketch ≠ s.sketch :=
  ⟨(withSketch (some (oneRegister 7 1 57#8))).withFetchWord 72 0x020200000000000000, _, by decide, rfl, by decide⟩

theorem witness_InvariantBoundsEveryRegister :
    (withSketch (some (oneRegister 7 1 57#8))).Inv = true
      ∧ (withSketch (some (oneRegister 7 1 57#8))).sketch = some (oneRegister 7 1 57#8) := by decide

end Sys2Proof.Tests
end

section
/-!
SUPPORT. The proofs of the family `10_state.md`: the constants of a precision, a fresh Sketch, what a lifetime keeps, and
the invariant of the whole state.
-/

namespace Sys2Proof.Machine

/-! ## The constants of the precision (R6, R7) -/

theorem remainderMask_toNat (p : Nat) : (remainderMask p).toNat = 2 ^ (64 - p) - 1 := by
  have hle : 2 ^ (64 - p) ≤ 2 ^ 64 := Nat.pow_le_pow_right (by decide) (by omega)
  rw [remainderMask, remainderBits_eq, BitVec.toNat_ofNat, Nat.mod_eq_of_lt (by omega)]

theorem getLsbD_remainderMask (p j : Nat) : (remainderMask p).getLsbD j = decide (j < 64 - p) := by
  rw [BitVec.getLsbD, remainderMask_toNat, Nat.testBit_two_pow_sub_one]

/-- `alpha(m)` over one denominator (R64, R65). -/
theorem alpha_eq_div {m : Nat} (hm : 0 < m) : alpha m = 7213 * (m : ℚ) / (10 * (1000 * m + 1079)) := by
  have hm' : (0 : ℚ) < m := Nat.cast_pos.2 hm
  simp only [alpha, Config.alphaNumerator, Config.alphaDenominator]
  push_cast
  field_simp
  ring

theorem alphaTerm_eq_div (p : Nat) :
    alphaTerm p = 7213 * (2 ^ p : ℚ) ^ 3 / (10 * (1000 * 2 ^ p + 1079)) := by
  rw [alphaTerm, alpha_eq_div (registerCount_pos p), registerCount_eq, Nat.cast_pow, Nat.cast_ofNat]
  ring

/-- Settles O19: the mask by its value and its bits, `alphaTerm` over one denominator. -/
theorem derivedConstantsOfThePrecision : Obligations.DerivedConstantsOfThePrecision := by
  intro p h7 h18
  have hbits := remainderBits_eq p
  refine ⟨registerCount_eq p, rfl, hbits, by omega, by omega, remainderMask_toNat p,
    fun j _ => getLsbD_remainderMask p j, alphaTerm_eq_div p, ?_⟩
  rw [alphaTerm, alpha, registerCount_eq, Nat.cast_pow]
  rfl

/-! ## The fresh Sketch and its estimate (R18) -/

/-- The estimate of a Sketch whose registers are all 0: `alpha(m) * m`, truncated (R18). -/
def baseline (m : Nat) : Nat := 7213 * m ^ 2 / (10 * (1000 * m + 1079))

theorem floor_alpha_mul {m : Nat} (hm : 0 < m) : ⌊alpha m * m⌋ = (baseline m : Int) := by
  have h : alpha m * m = ((7213 * m ^ 2 : Nat) : ℚ) / ((10 * (1000 * m + 1079) : Nat) : ℚ) := by
    rw [alpha_eq_div hm]
    push_cast
    ring
  rw [h, Rat.floor_natCast_div_natCast]
  rfl

theorem zint_zeroed (p : Nat) : zint p Memory.zeroed = 2 ^ p * 2 ^ 63 := by
  simp [zint, Memory.zeroed]

/-- With every register at 0, `Zint` is `m * 2^63`, and `m * 2^63` cancels. -/
theorem estimate_zeroed (p : Nat) : estimate p Memory.zeroed = baseline (2 ^ p) := by
  have hpos : 0 < 2 ^ p * 2 ^ 63 := by positivity
  have hnum : Config.alphaNumerator * (2 ^ p) ^ 3 * 2 ^ 63 = 7213 * (2 ^ p) ^ 2 * (2 ^ p * 2 ^ 63) := by
    rw [Config.alphaNumerator]
    ring
  rw [estimate, zint_zeroed, registerCount_eq, hnum, Nat.mul_div_mul_right _ _ hpos]
  rfl

theorem Sketch.estimate_fresh {p : Nat} (h : p ≤ 18) : (Sketch.fresh p).estimate = baseline (2 ^ p) := by
  rw [Sketch.estimate, Sketch.fresh_precision h, Sketch.fresh_x, estimate_zeroed]

theorem exec_construct_valid {arg : Word64} (h7 : 7 ≤ arg.toInt) (h18 : arg.toInt ≤ 18) (s : State) :
    exec (.construct arg) s = .next { s with
      sketch := some (Sketch.fresh arg.toInt.toNat)
      respS := some { status := .ok, info := 0#8, value := 0#64 } } :=
  congrArg (fun r => Host.Outcome.next (s.complete .S r)) (constructCommand_of_valid h7 h18 s.sketch)

/-- `COUNT` of an estimate that fits a signed result. -/
theorem exec_count_of_fits {s : State} {sk : Sketch} (hs : s.sketch = some sk) (h : sk.estimate ≤ 2 ^ 63 - 1) :
    exec .count s = .next { s with
      respS := some { status := .ok, info := 0#8, value := BitVec.ofNat 64 sk.estimate } } := by
  have hcount : countCommand s.sketch = respondOk s.sketch 0#8 (BitVec.ofNat 64 sk.estimate) := by
    rw [hs, countCommand_some, countInfo_of_le h, countValue_of_le h]
  exact congrArg (fun r => Host.Outcome.next (s.complete .S r)) hcount

/-- The twelve values that R18 lists are the baselines of their precisions. -/
theorem baseline_of_mem : ∀ qv ∈ [(7, 91), (8, 183), (9, 368), (10, 737), (11, 1476), (12, 2953), (13, 5908), (14, 11817),
    (15, 23634), (16, 47270), (17, 94541), (18, 189083)],
    (7 ≤ qv.1 ∧ qv.1 ≤ 18) ∧ baseline (2 ^ qv.1) = qv.2 ∧ qv.2 ≤ 2 ^ 63 - 1 := by decide

theorem toInt_ofNat_precision {q : Nat} (h : q ≤ 18) : (BitVec.ofNat 64 q).toInt = q := by
  rw [BitVec.toInt_eq_toNat_of_lt] <;> rw [BitVec.toNat_ofNat, Nat.mod_eq_of_lt (by omega)]
  omega

/-- Settles O22: the floor and `COUNT`'s closed form are both the baseline of `m`, which the list tabulates. -/
theorem countOfAFreshSketchIsTheBaseline : Obligations.CountOfAFreshSketchIsTheBaseline := by
  intro s q v hqv
  obtain ⟨⟨h7, h18⟩, hv, hfit⟩ := baseline_of_mem _ hqv
  have hq := toInt_ofNat_precision h18
  have hfresh : (Sketch.fresh q).estimate = v := (Sketch.estimate_fresh h18).trans hv
  have hfloor := floor_alpha_mul (Nat.two_pow_pos q)
  rw [hv, Nat.cast_pow, Nat.cast_ofNat] at hfloor
  have hexec := exec_construct_valid (arg := BitVec.ofNat 64 q) (by rw [hq]; omega) (by rw [hq]; omega) s
  rw [hq, Int.toNat_natCast] at hexec
  refine ⟨hfloor.symm, _, Sketch.fresh q, hexec, rfl, Sketch.fresh_precision h18, fun i _ => rfl, ?_⟩
  rw [← hfresh]
  exact exec_count_of_fits rfl (hfresh ▸ hfit)

/-! ## One shape for every command, and its frame (R12, R25) -/

/-- Every command answers the next state `s.complete i.port r`, and `COUNT` and `HASH` give back the Sketch. -/
theorem exec_eq_complete (i : Instr) (s : State) : ∃ r : Result, exec i s = .next (s.complete i.port r)
    ∧ (i = .count ∨ (∃ q, i = .hash q) → r.sketch = s.sketch) := by
  cases i with
  | construct arg => exact ⟨_, rfl, by simp⟩
  | add hashValue => exact ⟨_, rfl, by simp⟩
  | count => exact ⟨_, rfl, fun _ => countCommand_sketch _⟩
  | hash q => exact ⟨_, rfl, fun _ => hashCommand_sketch _ _⟩

/-- Settles O46, from the one shape of every command's outcome. -/
theorem commandsLeaveTheRestAlone : Obligations.CommandsLeaveTheRestAlone := by
  intro i s t h
  obtain ⟨r, hr, hsame⟩ := exec_eq_complete i s
  obtain rfl : s.complete i.port r = t := Host.Outcome.next.inj (hr.symm.trans h)
  exact ⟨fun hi => (s.complete_sketch _ r).trans (hsame hi), fun _ hother => s.complete_resp_other r hother,
    s.complete_events _ r, s.complete_received _ r⟩

/-- Settles O16: every clause is a run of the model on the one reset state. -/
theorem resetStateHasNoSketch : Obligations.ResetStateHasNoSketch :=
  ⟨State.reset_sketch, State.reset_respS, State.reset_respH, fun _ => rfl, rfl⟩

/-! ## Growth of the registers within a lifetime (R2, R9) -/

/-- Same precision, and no register lower: what a lifetime allows. -/
def Sketch.GrowsTo (sk sk' : Sketch) : Prop := sk'.p = sk.p ∧ ∀ i, (sk.read i).toNat ≤ (sk'.read i).toNat

theorem Sketch.GrowsTo.refl (sk : Sketch) : sk.GrowsTo sk := ⟨rfl, fun _ => le_rfl⟩

theorem Sketch.GrowsTo.trans {a b c : Sketch} (hab : a.GrowsTo b) (hbc : b.GrowsTo c) : a.GrowsTo c :=
  ⟨hbc.1.trans hab.1, fun i => (hab.2 i).trans (hbc.2 i)⟩

theorem Sketch.growsTo_record (sk : Sketch) (h : Word64) : sk.GrowsTo (sk.record h) :=
  ⟨rfl, fun i => Memory.read_le_maxUpdate _ _ i (rankOf_bounds _ h).1 (rankOf_bounds _ h).2⟩

theorem Sketch.growsTo_recordAll (sk : Sketch) (hashes : List Word64) : sk.GrowsTo (sk.recordAll hashes) := by
  induction hashes generalizing sk with
  | nil => exact .refl sk
  | cons h rest ih => exact (sk.growsTo_record h).trans (ih (sk.record h))

/-- A `CONSTRUCT` that does not end the lifetime is one that fails. -/
theorem construct_outOfRange_of_keepsLifetime {w : Request} {arg : Word64} (hw : keepsLifetime w = true)
    (hd : decode w = .instr (.construct arg)) : arg.toInt < 7 ∨ 18 < arg.toInt := by
  rw [keepsLifetime, hd] at hw
  exact of_decide_eq_true hw

/-- A word that does not end the lifetime answers with a grown Sketch. -/
theorem commandResult_growsTo {w : Request} (hw : keepsLifetime w = true) (sk : Sketch) :
    ∃ sk', (commandResult w (some sk)).sketch = some sk' ∧ sk.GrowsTo sk' := by
  unfold commandResult
  rcases hd : decode w with (arg | hashValue | _ | q) | op
  · refine ⟨sk, ?_, .refl sk⟩
    rcases construct_outOfRange_of_keepsLifetime hw hd with hlt | hgt
    · exact congrArg Result.sketch (constructCommand_of_lt hlt _)
    · exact congrArg Result.sketch (constructCommand_of_gt hgt _)
  · exact ⟨_, rfl, sk.growsTo_record hashValue⟩
  · exact ⟨sk, rfl, .refl sk⟩
  · exact ⟨sk, hashCommand_sketch q _, .refl sk⟩
  · exact ⟨sk, rfl, .refl sk⟩

/-- An event of the lifetime grows the Sketch. -/
theorem perform_growsTo {e : HostEvent} (he : e.inLifetime = true) {s t : State} {sk : Sketch}
    (hs : s.sketch = some sk) (h : perform e s = .next t) : ∃ sk', t.sketch = some sk' ∧ sk.GrowsTo sk' := by
  rcases perform_cases e s with ⟨w, rfl, hp⟩ | ⟨port, rfl, hp⟩ | ⟨rfl | ⟨w, rfl⟩, -⟩
  · cases hp.symm.trans h
    rw [State.complete_sketch, hs]
    exact commandResult_growsTo he sk
  · cases hp.symm.trans h
    exact ⟨sk, (s.take_sketch port).trans hs, .refl sk⟩
  · cases he
  · cases he

/-- Settles O47: a step waits or performs an event of the lifetime, and such an event grows the Sketch. -/
theorem registersNeverDecreaseInALifetime : Obligations.RegistersNeverDecreaseInALifetime := by
  intro s t sk hs hstep hlife
  rcases step_cases s with ⟨-, hwait⟩ | ⟨e, rest, hfirst, hperf⟩
  · cases hwait.symm.trans hstep
    exact ⟨sk, hs, Sketch.GrowsTo.refl sk⟩
  · exact perform_growsTo (hlife e rest hfirst) (s := { s with events := rest }) hs (hperf.symm.trans hstep)

/-! ## Adding a hash value again (R11) -/

/-- The register of the hash value's bucket is already at its rank or above: adding it writes nothing (R53). -/
def Sketch.Covers (sk : Sketch) (h : Word64) : Prop :=
  rankOf sk.precision h ≤ (sk.read (bucketIndex sk.precision h)).toNat

theorem Sketch.covers_record (sk : Sketch) (h : Word64) : (sk.record h).Covers h := by
  rw [Covers, record_precision, read_record, if_pos rfl]
  exact le_max_right _ _

theorem Sketch.Covers.mono {sk sk' : Sketch} {h : Word64} (hc : sk.Covers h) (hg : sk.GrowsTo sk') : sk'.Covers h := by
  have hp : sk'.precision = sk.precision := congrArg BitVec.toNat hg.1
  rw [Covers, hp]
  exact hc.trans (hg.2 _)

theorem Memory.maxUpdate_of_le {x : Memory} {i rank : Nat} (h : rank ≤ (x.read i).toNat) : x.maxUpdate i rank = x :=
  if_neg (Nat.not_lt.2 h)

theorem Sketch.record_of_covers {sk : Sketch} {h : Word64} (hc : sk.Covers h) : sk.record h = sk :=
  congrArg (Sketch.mk sk.p) (Memory.maxUpdate_of_le hc)

/-- A Sketch covers every hash value that was added to it. -/
theorem Sketch.recordAll_covers {hashes : List Word64} {h : Word64} (hmem : h ∈ hashes) (sk : Sketch) :
    (sk.recordAll hashes).Covers h := by
  induction hashes generalizing sk with
  | nil => cases hmem
  | cons g rest ih =>
    rcases List.mem_cons.1 hmem with rfl | hmem
    · exact (sk.covers_record h).mono ((sk.record h).growsTo_recordAll rest)
    · exact ih hmem (sk.record g)

theorem exec_add_of_sketch (h : Word64) {s : State} {sk : Sketch} (hs : s.sketch = some sk) :
    exec (.add h) s = .next { s with
      sketch := some (sk.record h), respS := some { status := .ok, info := 0#8, value := 0#64 } } :=
  congrArg (fun b => Host.Outcome.next (s.complete .S (addCommand h b))) hs

/-- Executing the `ADD`s of a list records the list. -/
theorem addAll_sketch {hashes : List Word64} {s t : State} {sk : Sketch} (hs : s.sketch = some sk)
    (h : addAll hashes s = .next t) : t.sketch = some (sk.recordAll hashes) := by
  induction hashes generalizing s sk with
  | nil => cases h; exact hs
  | cons g rest ih =>
    rw [addAll, exec_add_of_sketch g hs] at h
    exact ih (sk := sk.record g) rfl h

/-- Settles O27: the Sketch covers the hash value since it was added, so adding it again gives the response and no more. -/
theorem reAddingChangesNoRegister : Obligations.ReAddingChangesNoRegister := by
  intro s t hashes h hs hmem hrun
  obtain ⟨sk, hsk⟩ := Option.ne_none_iff_exists'.1 hs
  have ht := addAll_sketch hsk hrun
  have hadd := exec_add_of_sketch h ht
  rw [Sketch.record_of_covers (Sketch.recordAll_covers hmem sk), ← ht] at hadd
  exact ⟨_, hadd, rfl, rfl⟩

/-! ## Every response is one of R80's table -/

theorem constructCommand_legal (arg : Word64) (before : Option Sketch) :
    (constructCommand arg before).response.legal .S = true := by
  rcases lt_or_ge arg.toInt 7 with hlt | h7
  · rw [constructCommand_of_lt hlt]
    exact decide_eq_true (.inl ⟨rfl, hlt⟩)
  rcases lt_or_ge 18 arg.toInt with hgt | h18
  · rw [constructCommand_of_gt hgt]
    exact decide_eq_true (.inr ⟨rfl, hgt⟩)
  · rw [constructCommand_of_valid h7 h18]
    rfl

theorem addCommand_legal (h : Word64) (before : Option Sketch) : (addCommand h before).response.legal .S = true := by
  cases before <;> rfl

/-- An estimate that fits comes with `SAT` clear, one that does not with the largest result and `SAT` set (R66). -/
theorem countCommand_legal (before : Option Sketch) : (countCommand before).response.legal .S = true := by
  cases before with
  | none => rfl
  | some sk =>
    rw [countCommand_some]
    rcases Nat.lt_or_ge (2 ^ 63 - 1) sk.estimate with hgt | hle
    · rw [countInfo_of_gt hgt, countValue_of_gt hgt]
      rfl
    · rw [countInfo_of_le hle, countValue_of_le hle]
      have hval : (BitVec.ofNat 64 sk.estimate).toNat ≤ 2 ^ 63 - 1 := by
        rw [BitVec.toNat_ofNat]
        exact (Nat.mod_le _ _).trans hle
      exact decide_eq_true ⟨hval, .inl rfl⟩

theorem hashCommand_legal (q : AdapterOperand) (before : Option Sketch) :
    (hashCommand q before).response.legal .H = true := by
  cases q with
  | failed err =>
    rw [hashCommand_failed]
    have herr : (err.setWidth 64).toNat < 2 ^ 32 := by rw [BitVec.toNat_setWidth]; omega
    exact decide_eq_true ⟨rfl, herr⟩
  | digest dlen d =>
    rcases Nat.lt_or_ge dlen.toNat 8 with hshort | hlong
    · rw [hashCommand_of_short hshort]
      have hlen : (dlen.setWidth 64).toNat < 8 := by rw [BitVec.toNat_setWidth]; omega
      exact decide_eq_true ⟨rfl, hlen⟩
    · rw [hashCommand_of_long hlong]
      rfl

/-- A word is rejected for a reserved opcode only (R34, R36). -/
theorem reserved_of_decode_illegal {w : Request} {op : Byte} (h : decode w = .illegal op) : op = 0x00#8 ∨ 4 ≤ op.toNat := by
  cases w with
  | h hq => cases h
  | s cw =>
    simp only [decode, decodeS] at h
    split_ifs at h with h1 h2 h3
    cases h
    bv_omega

theorem illegalCommand_legal {op : Byte} (hop : op = 0x00#8 ∨ 4 ≤ op.toNat) (before : Option Sketch) :
    (illegalCommand op before).response.legal .S = true := decide_eq_true ⟨hop, rfl⟩

/-- The answer to any word is one that R80's table allows on the word's port. -/
theorem commandResult_legal (w : Request) (before : Option Sketch) :
    (commandResult w before).response.legal w.port = true := by
  unfold commandResult
  cases hd : decode w with
  | instr i =>
    rw [← decode_port hd]
    cases i with
    | construct arg => exact constructCommand_legal arg before
    | add hashValue => exact addCommand_legal hashValue before
    | count => exact countCommand_legal before
    | hash q => exact hashCommand_legal q before
  | illegal op =>
    rw [decode_illegal_port hd]
    exact illegalCommand_legal (reserved_of_decode_illegal hd) before

/-! ## Every command keeps the Sketch good -/

/-- A Sketch in existence is good. -/
def GoodSketch (o : Option Sketch) : Prop := ∀ sk, o = some sk → sk.wf = true

theorem constructCommand_good (arg : Word64) {before : Option Sketch} (hb : GoodSketch before) :
    GoodSketch (constructCommand arg before).sketch := by
  rcases lt_or_ge arg.toInt 7 with hlt | h7
  · rw [constructCommand_of_lt hlt]
    exact hb
  rcases lt_or_ge 18 arg.toInt with hgt | h18
  · rw [constructCommand_of_gt hgt]
    exact hb
  · rw [constructCommand_of_valid h7 h18]
    rintro _ ⟨⟩
    exact Sketch.wf_fresh (by omega) (by omega)

theorem addCommand_good (h : Word64) {before : Option Sketch} (hb : GoodSketch before) :
    GoodSketch (addCommand h before).sketch := by
  cases before with
  | none => exact hb
  | some sk =>
    rintro _ ⟨⟩
    exact Sketch.wf_record (hb sk rfl) h

theorem commandResult_good (w : Request) {before : Option Sketch} (hb : GoodSketch before) :
    GoodSketch (commandResult w before).sketch := by
  unfold commandResult
  rcases decode w with (arg | hashValue | _ | q) | op
  · exact constructCommand_good arg hb
  · exact addCommand_good hashValue hb
  · exact (countCommand_sketch before).symm ▸ hb
  · exact (hashCommand_sketch q before).symm ▸ hb
  · exact hb

/-! ## The invariant -/

theorem State.Inv.sketch_good {s : State} (h : s.Inv = true) : GoodSketch s.sketch :=
  (State.wf_iff s).1 ((State.inv_iff s).1 h).1

/-- Ending a command with a good Sketch and a legal response keeps the invariant. -/
theorem State.inv_complete {s : State} (h : s.Inv = true) {port : Port} {r : Result} (hsk : GoodSketch r.sketch)
    (hr : r.response.legal port = true) : (s.complete port r).Inv = true := by
  obtain ⟨-, hresp, hrec⟩ := (State.inv_iff s).1 h
  refine (State.inv_iff _).2 ⟨(State.wf_iff _).2 ?_, fun other r' hr' => ?_, ?_⟩
  · rwa [State.complete_sketch]
  · by_cases ho : other = port
    · subst ho
      rw [State.complete_resp_same] at hr'
      cases hr'
      exact hr
    · rw [State.complete_resp_other s r ho] at hr'
      exact hresp other r' hr'
  · rwa [State.complete_received]

/-- Taking a response moves a legal response from its port to the record. -/
theorem State.inv_take {s : State} (h : s.Inv = true) (port : Port) : (s.take port).Inv = true := by
  obtain ⟨hwf, hresp, hrec⟩ := (State.inv_iff s).1 h
  rcases s.take_spec port with ⟨-, hsame⟩ | ⟨r, hr, hfree, hreceived, hother⟩
  · rwa [hsame]
  refine (State.inv_iff _).2 ⟨(State.wf_iff _).2 ?_, fun other r' hr' => ?_, fun pr hpr => ?_⟩
  · rw [State.take_sketch]
    exact (State.wf_iff s).1 hwf
  · by_cases ho : other = port
    · rw [ho, hfree] at hr'
      cases hr'
    · rw [hother other ho] at hr'
      exact hresp other r' hr'
  · rw [hreceived] at hpr
    rcases List.mem_append.1 hpr with hold | hnew
    · exact hrec pr hold
    · cases List.mem_singleton.1 hnew
      exact hresp port r hr

/-- The reset event leaves no Sketch and no pending response, and the record as it was. -/
theorem State.inv_resetEvent {s : State} (h : s.Inv = true) : s.resetEvent.Inv = true := by
  obtain ⟨-, -, hrec⟩ := (State.inv_iff s).1 h
  refine (State.inv_iff _).2 ⟨rfl, fun port r hr => ?_, hrec⟩
  cases port <;> cases hr

/-- Every host event keeps the invariant. -/
theorem perform_keeps_inv {e : HostEvent} {s t : State} (h : s.Inv = true) (hp : perform e s = .next t) :
    t.Inv = true := by
  rcases perform_cases e s with ⟨w, -, hq⟩ | ⟨port, -, hq⟩ | ⟨-, hq⟩ <;> cases hq.symm.trans hp
  · exact State.inv_complete h (commandResult_good w (State.Inv.sketch_good h)) (commandResult_legal w s.sketch)
  · exact State.inv_take h port
  · exact State.inv_resetEvent h

/-- Settles O48: a step waits or performs an event, and the invariant does not speak of the events still to come. -/
theorem stepKeepsTheInvariant : Obligations.StepKeepsTheInvariant := by
  intro s t hinv hstep
  rcases step_cases s with ⟨-, hwait⟩ | ⟨e, rest, -, hperf⟩
  · cases hwait.symm.trans hstep
    exact hinv
  · exact perform_keeps_inv (s := { s with events := rest }) hinv (hperf.symm.trans hstep)

/-- Settles O49: nothing exists, is pending or was taken. -/
theorem resetMeetsTheInvariant : Obligations.ResetMeetsTheInvariant := rfl

/-- Settles O50, from what a good Sketch reads as inside and outside its array. -/
theorem invariantBoundsEveryRegister : Obligations.InvariantBoundsEveryRegister := by
  intro s sk hinv hs
  have hwf : sk.wf = true := State.Inv.sketch_good hinv sk hs
  refine ⟨sk.length_registers, fun b hb => ?_, fun i hi => Sketch.read_of_ge hwf hi⟩
  obtain ⟨i, -, rfl⟩ := List.mem_map.1 hb
  exact (legalRegister_iff _ _).1 (Sketch.read_legal hwf i)

end Sys2Proof.Machine
end

section
/-!
SUPPORT. The proofs of the family `20_memory.md`: the order in which presented words are served, and a command as one
atomic step that is a function of its word and of the Sketch (R25).
-/

namespace Sys2Proof.Machine

/-! ## Which event happens next (R25, R97) -/

/-- Events that wait are passed over, and stay. -/
theorem firstReady_append_of_not_ready {s : State} {before : List HostEvent} (h : ∀ b ∈ before, b.ready s = false)
    (events : List HostEvent) :
    firstReady s (before ++ events) = (firstReady s events).map fun q => (q.1, before ++ q.2) := by
  induction before with
  | nil => exact Option.map_id'.symm
  | cons b bs ih =>
    obtain ⟨hb, hbs⟩ := List.forall_mem_cons.1 h
    rw [List.cons_append, firstReady_cons_of_not_ready hb, ih hbs, Option.map_map]
    rfl

/-- A ready event with only waiting events before it is the one a step performs. -/
theorem step_eq_perform {s : State} {before rest : List HostEvent} {e : HostEvent}
    (hevents : s.events = before ++ e :: rest) (hbefore : ∀ b ∈ before, b.ready s = false) (he : e.ready s = true) :
    step s = perform e { s with events := before ++ rest } := by
  have hfirst : firstReady s s.events = some (e, before ++ rest) := by
    rw [hevents, firstReady_append_of_not_ready hbefore, firstReady_cons_of_ready he, Option.map_some]
  rw [step, hfirst]

/-- Whether a presented word waits depends on its port alone. -/
theorem HostEvent.ready_present_congr (s : State) {w w' : Request} (h : w'.port = w.port) :
    (HostEvent.present w').ready s = (HostEvent.present w).ready s := congrArg s.free h

/-- Settles O17: before the word that happens stand waiting events only, and a word of its port would not wait. -/
theorem wordsOfAPortKeepTheirOrder : Obligations.WordsOfAPortKeepTheirOrder := by
  intro s w rest hfirst
  obtain ⟨before, after, hevents, hrest, hready, hwait⟩ := firstReady_some hfirst
  refine ⟨before, after, hevents, hrest, fun w' hmem hport => ?_⟩
  have hready' : (HostEvent.present w').ready s = true := (HostEvent.ready_present_congr s hport).trans hready
  cases (hwait _ hmem).symm.trans hready'

/-! ## What serving a word does (R25, R31) -/

theorem serve_of_instr {w : Request} {i : Instr} (h : decode w = .instr i) (s : State) : serve w s = exec i s := by
  rw [serve, h]

theorem serve_of_illegal {w : Request} {op : Byte} (h : decode w = .illegal op) (s : State) :
    serve w s = .next { s with respS := some { status := .illegalCommand, info := op, value := 0#64 } } := by
  rw [serve, h]
  rfl

/-- Settles O8: the step performs the presented word, that is, serves it. -/
theorem stepRunsThePresentedCommand : Obligations.StepRunsThePresentedCommand := by
  intro s before rest w hevents hbefore hfree
  have hserve : step s = serve w { s with events := before ++ rest } := step_eq_perform hevents hbefore hfree
  exact ⟨fun i hi => hserve.trans (serve_of_instr hi _), fun op hop => hserve.trans (serve_of_illegal hop _)⟩

/-- Settles O45: the two are the parts of `commandResult`, which sees the word and the Sketch only. -/
theorem commandsAreFunctionsOfWordAndSketch : Obligations.CommandsAreFunctionsOfWordAndSketch := by
  intro w before
  refine ⟨(commandResult w before).sketch, (commandResult w before).response, ?_⟩
  rintro s rfl
  exact serve_eq w s

end Sys2Proof.Machine
end

section
/-!
SUPPORT. The proofs of the family `30_encoding.md`: what the words of both ports decode to, that the decoder reads back
what the encoder writes, the response word, and the sequences of the host and of the assembler.
-/

namespace Sys2Proof

/-! ## Fields by shift and width (R32, R37) -/

theorem ushiftRight_setWidth_eq_extractLsb' {w : Nat} (x : BitVec w) (start len : Nat) :
    (x >>> start).setWidth len = x.extractLsb' start len :=
  BitVec.eq_of_toNat_eq (by simp [BitVec.extractLsb'_toNat])

theorem opField_eq (cw : CommandWord) : (cw >>> 64).setWidth 8 = opField cw := ushiftRight_setWidth_eq_extractLsb' cw 64 8

theorem argField_eq (cw : CommandWord) : cw.setWidth 64 = argField cw := BitVec.setWidth_eq_extractLsb' (by decide)

theorem errField_eq (hq : AdapterWord) : (hq >>> 80).setWidth 32 = errField hq :=
  ushiftRight_setWidth_eq_extractLsb' hq 80 32

theorem dlenField_eq (hq : AdapterWord) : (hq >>> 64).setWidth 16 = dlenField hq :=
  ushiftRight_setWidth_eq_extractLsb' hq 64 16

theorem failField_eq_one_iff (hq : AdapterWord) : failField hq = 1#1 ↔ hq.getLsbD 112 = true := by
  rw [BitVec.getLsbD_eq_extractLsb', beq_iff_eq]
  rfl

theorem getLsbD_dField (hq : AdapterWord) {j : Nat} (hj : j < 64) : (dField hq).getLsbD j = hq.getLsbD j := by
  simp [dField, hj]

/-- The mask of R34's table keeps the whole of `op`. -/
theorem opField_and_mask (cw : CommandWord) : opField (cw &&& 0xFF0000000000000000#72) = opField cw := by
  have hmask : (0xFF0000000000000000#72).extractLsb' 64 8 = BitVec.allOnes 8 := by decide
  rw [opField, opField, BitVec.extractLsb'_and, hmask, BitVec.and_allOnes]

/-- A word that matches a row of R34's table has the row's `op`. -/
theorem opField_of_match {cw m : CommandWord} (h : cw &&& 0xFF0000000000000000#72 = m) : opField cw = opField m := by
  rw [← opField_and_mask cw, h]

/-! ## The lanes a digest reaches (R37, R39) -/

theorem reachedLanes_eq_self {dlen : BitVec 16} {d : Word64} (h : (AdapterOperand.digest dlen d).wf = true) :
    reachedLanes dlen d = d := by
  have hwf : 8 ≤ dlen.toNat ∨ d.toNat < 2 ^ (8 * dlen.toNat) := of_decide_eq_true h
  unfold reachedLanes
  split
  · rfl
  · next hshort =>
    have hd : d.toNat < 2 ^ (8 * dlen.toNat) := hwf.resolve_left hshort
    rw [Nat.mod_eq_of_lt hd, BitVec.ofNat_toNat, BitVec.setWidth_eq]

theorem wf_reachedLanes (dlen : BitVec 16) (d : Word64) :
    (AdapterOperand.digest dlen (reachedLanes dlen d)).wf = true := by
  refine decide_eq_true (or_iff_not_imp_left.2 fun hshort => ?_)
  rw [reachedLanes, if_neg hshort, BitVec.toNat_ofNat]
  exact (Nat.mod_le _ _).trans_lt (Nat.mod_lt _ (Nat.two_pow_pos _))

theorem reachedLanes_congr {dlen : BitVec 16} {d d' : Word64}
    (h : ∀ j < 64, j < 8 * dlen.toNat → d.getLsbD j = d'.getLsbD j) : reachedLanes dlen d = reachedLanes dlen d' := by
  refine BitVec.eq_of_getLsbD_eq fun j hj => ?_
  rw [getLsbD_reachedLanes dlen d hj, getLsbD_reachedLanes dlen d' hj]
  by_cases hreach : j < 8 * dlen.toNat
  · rw [h j hj hreach]
  · simp [hreach]

/-! ## What a word decodes to, by its deciding field (R34, R36, R37) -/

theorem decode_of_op_construct {cw : CommandWord} (h : opField cw = 0x01#8) :
    decode (.s cw) = .instr (.construct (argField cw)) := if_pos h

theorem decode_of_op_add {cw : CommandWord} (h : opField cw = 0x02#8) :
    decode (.s cw) = .instr (.add (argField cw)) := by
  simp [decode, decodeS, h]

theorem decode_of_op_count {cw : CommandWord} (h : opField cw = 0x03#8) : decode (.s cw) = .instr .count := by
  simp [decode, decodeS, h]

theorem decode_of_op_reserved {cw : CommandWord} (h : opField cw = 0x00#8 ∨ 4 ≤ (opField cw).toNat) :
    decode (.s cw) = .illegal (opField cw) := by
  have h1 : opField cw ≠ 0x01#8 := by bv_omega
  have h2 : opField cw ≠ 0x02#8 := by bv_omega
  have h3 : opField cw ≠ 0x03#8 := by bv_omega
  simp [decode, decodeS, h1, h2, h3]

theorem decode_of_fail_set {hq : AdapterWord} (h : failField hq = 1#1) :
    decode (.h hq) = .instr (.hash (.failed (errField hq))) := congrArg Decoded.instr (if_pos h)

theorem decode_of_fail_clear {hq : AdapterWord} (h : failField hq ≠ 1#1) :
    decode (.h hq) = .instr (.hash (.digest (dlenField hq) (reachedLanes (dlenField hq) (dField hq)))) :=
  congrArg Decoded.instr (if_neg h)

theorem decode_commandWord_reserved {op : Byte} (h : op = 0x00#8 ∨ 4 ≤ op.toNat) (arg : Word64) :
    decode (.s (commandWord op arg)) = .illegal op := by
  rw [decode_of_op_reserved] <;> rw [opField_commandWord]
  exact h

theorem decode_adapterWord_failed (err : BitVec 32) (dlen : BitVec 16) (d : Word64) :
    decode (.h (adapterWord 1#1 err dlen d)) = .instr (.hash (.failed err)) := by
  rw [decode_of_fail_set (failField_adapterWord ..), errField_adapterWord]

theorem decode_adapterWord_digest (err : BitVec 32) (dlen : BitVec 16) (d : Word64) :
    decode (.h (adapterWord 0#1 err dlen d)) = .instr (.hash (.digest dlen (reachedLanes dlen d))) := by
  have hclear : failField (adapterWord 0#1 err dlen d) ≠ 1#1 := by
    rw [failField_adapterWord]
    decide
  rw [decode_of_fail_clear hclear, dlenField_adapterWord, dField_adapterWord]

/-! ## Decoding after encoding, and encoding after decoding -/

/-- Settles O2: the deciding field of the encoder's word selects the command, whose operand is read whole; of a digest
that is so because a well-formed one has nothing in the lanes that the decoder clears. -/
theorem decodeOfEncodeGivesTheInstruction : Obligations.DecodeOfEncodeGivesTheInstruction := by
  intro i hwf
  cases i with
  | construct arg => exact (decode_of_op_construct (opField_commandWord ..)).trans (by rw [argField_commandWord])
  | add hashValue => exact (decode_of_op_add (opField_commandWord ..)).trans (by rw [argField_commandWord])
  | count => exact decode_of_op_count (opField_commandWord ..)
  | hash q =>
    cases q with
    | failed err => exact decode_adapterWord_failed err _ _
    | digest dlen d => exact (decode_adapterWord_digest _ dlen d).trans (by rw [reachedLanes_eq_self hwf])

theorem decodeH_wf (hq : AdapterWord) : (decodeH hq).wf = true := by
  unfold decodeH
  split
  · rfl
  · exact wf_reachedLanes _ _

/-- Every term of port S is well-formed, and the decoder of port H clears the lanes. -/
theorem wf_of_decode {w : Request} {i : Instr} (h : decode w = .instr i) : i.wf = true := by
  cases w with
  | h hq =>
    cases h
    exact decodeH_wf hq
  | s cw =>
    have hport : i.port = .S := Machine.decode_port h
    cases i with
    | construct arg => rfl
    | add hashValue => rfl
    | count => rfl
    | hash q => cases hport

theorem encode_port (i : Instr) : (encode i).port = i.port := by
  cases i with
  | construct arg => exact Laws.EncodedPort.construct arg
  | add hashValue => exact Laws.EncodedPort.add hashValue
  | count => exact Laws.EncodedPort.count
  | hash q => exact Laws.EncodedPort.hash q

/-- Settles O3: what a word decodes to is well-formed, and so is read back from its own word. -/
theorem everyWordReadsAsItsAssembledWord : Obligations.EveryWordReadsAsItsAssembledWord := by
  intro w i h
  have hwf := wf_of_decode h
  exact ⟨hwf, (encode_port i).trans (Machine.decode_port h), decodeOfEncodeGivesTheInstruction i hwf⟩

/-! ## The fields of the words of both ports -/

/-- Settles O4, from the `op` of a word that matches a row. -/
theorem portSWordsFollowTheOpcodeMap : Obligations.PortSWordsFollowTheOpcodeMap := by
  intro cw
  rw [opField_eq, argField_eq]
  exact ⟨fun h => decode_of_op_construct ((opField_of_match h).trans (by decide)),
    fun h => decode_of_op_add ((opField_of_match h).trans (by decide)),
    fun h => decode_of_op_count ((opField_of_match h).trans (by decide)), decode_of_op_reserved⟩

/-- Settles O5, from the two values of bit 112. -/
theorem portHWordsReadTheirFields : Obligations.PortHWordsReadTheirFields := by
  intro hq
  rw [errField_eq, dlenField_eq]
  refine ⟨fun h => decode_of_fail_set ((failField_eq_one_iff hq).2 h),
    fun h => ⟨_, decode_of_fail_clear ?_, fun j hj => ?_⟩⟩
  · rw [Ne, failField_eq_one_iff, h]
    decide
  · rw [getLsbD_reachedLanes _ _ hj, getLsbD_dField hq hj]

/-- Settles O6: what each of the words decodes to does not mention the don't-care field, and a digest's lanes that are
not reached are cleared. -/
theorem dontCareFieldsAreNotRead : Obligations.DontCareFieldsAreNotRead := by
  refine ⟨fun a b => ?_, fun op a b h => ?_, fun err dlen dlen' d d' => ?_, fun err err' dlen d d' h => ?_⟩
  · rw [decode_of_op_count (opField_commandWord ..), decode_of_op_count (opField_commandWord ..)]
  · rw [decode_commandWord_reserved h, decode_commandWord_reserved h]
  · rw [decode_adapterWord_failed, decode_adapterWord_failed]
  · rw [decode_adapterWord_digest, decode_adapterWord_digest, reachedLanes_congr h]

/-- Settles O1: each clause is a run of the decoder on one word. -/
theorem specWordsDecode : Obligations.SpecWordsDecode := by
  unfold Obligations.SpecWordsDecode
  decide

end Sys2Proof

namespace Sys2Proof.Machine

/-! ## The response word (R33, R80) -/

theorem toWord_status (r : Response) : (r.toWord >>> 72).setWidth 8 = r.status.code := by
  rw [ushiftRight_setWidth_eq_extractLsb', Response.toWord, BitVec.extractLsb'_append_eq_of_le (by decide),
    BitVec.extractLsb'_append_eq_left]

theorem toWord_info (r : Response) : (r.toWord >>> 64).setWidth 8 = r.info := by
  rw [ushiftRight_setWidth_eq_extractLsb', Response.toWord, BitVec.extractLsb'_append_eq_of_le (by decide),
    BitVec.extractLsb'_append_eq_right]

theorem toWord_value (r : Response) : r.toWord.setWidth 64 = r.value := by
  rw [BitVec.setWidth_eq_extractLsb' (by decide), Response.toWord, BitVec.extractLsb'_append_eq_right]

theorem Status.code_injective {a b : Status} (h : a.code = b.code) : a = b := by
  revert h
  cases a <;> cases b <;> decide

/-- The three fields are read off the word, and the code tells the status. -/
theorem Response.toWord_injective {r r' : Response} (h : r.toWord = r'.toWord) : r = r' := by
  have hstatus : r.status = r'.status := Status.code_injective (by rw [← toWord_status, h, toWord_status])
  have hinfo : r.info = r'.info := by rw [← toWord_info, h, toWord_info]
  have hvalue : r.value = r'.value := by rw [← toWord_value, h, toWord_value]
  cases r
  cases r'
  exact (Response.mk.injEq ..).mpr ⟨hstatus, hinfo, hvalue⟩

/-- Settles O7: the fields are read off the word, which therefore tells the response. -/
theorem responseWordLayout : Obligations.ResponseWordLayout :=
  ⟨fun r => ⟨toWord_status r, toWord_info r, toWord_value r⟩, fun _ _ => Response.toWord_injective,
    rfl, rfl, rfl, rfl, rfl, rfl⟩

/-! ## Reserved opcodes (R36, R83) -/

/-- R80's table has no `ILLEGAL_COMMAND` on port H. -/
theorem status_ne_illegalCommand_of_legal_H {r : Response} (h : r.legal .H = true) : r.status ≠ .illegalCommand := by
  obtain ⟨status, info, value⟩ := r
  rintro (rfl : status = .illegalCommand)
  cases h

/-- Settles O10: a reserved opcode decodes to no command, and every answer of port H is one of R80's table. -/
theorem reservedOpcodeIsAnsweredIllegalCommand : Obligations.ReservedOpcodeIsAnsweredIllegalCommand := by
  refine ⟨fun s op arg hop => serve_of_illegal (decode_commandWord_reserved hop arg) s, fun s t hq r hserve hresp => ?_⟩
  cases (serve_eq (.h hq) s).symm.trans hserve
  obtain rfl : (commandResult (.h hq) s.sketch).response = r := Option.some.inj hresp
  exact status_ne_illegalCommand_of_legal_H (commandResult_legal (.h hq) s.sketch)

/-! ## The word placed next (R101) -/

/-- The step after a word is offered serves that word. -/
theorem step_offer (s : State) (w : Request) : step (s.offer w) = serve w (s.setResp w.port none) := by
  have hstep : step (s.offer w) = serve w { s.offer w with events := s.events } :=
    step_eq_perform (before := []) (s.offer_events w) (by simp) (s.offer_free w)
  rw [hstep]
  cases w <;> rfl

/-- What `decodeTableWord` reads is what the port's word decodes to. -/
theorem exists_request_of_decodeTableWord {nbits w : Nat} {i : Instr} (h : decodeTableWord nbits w = some i) :
    ∃ r, requestOfTable nbits w = some r ∧ decode r = .instr i := by
  unfold decodeTableWord at h
  split at h
  · cases h
  · next r hr =>
    split at h
    · next j hj =>
      cases h
      exact ⟨r, hr, hj⟩
    · cases h

theorem withFetchWord_of_request {nbits w : Nat} {r : Request} (h : requestOfTable nbits w = some r) (s : State) :
    s.withFetchWord nbits w = s.offer r := by
  rw [State.withFetchWord, State.offerTableWord, h]

/-- Settles O9: the placed word is offered, so the step serves it. -/
theorem placedWordRunsNext : Obligations.PlacedWordRunsNext := by
  intro s nbits w i h
  obtain ⟨r, hr, hi⟩ := exists_request_of_decodeTableWord h
  rw [withFetchWord_of_request hr, step_offer, serve_of_instr hi, decode_port hi]

/-! ## The digest as a number (R23, R72) -/

theorem littleEndian_lt (bytes : List Byte) : littleEndian bytes < 2 ^ (8 * bytes.length) := by
  induction bytes with
  | nil => decide
  | cons b rest ih =>
    rw [littleEndian, List.length_cons, Nat.mul_succ, Nat.add_comm _ 8, pow_add]
    have hb := b.isLt
    omega

theorem littleEndian_take_eq_sum (n : Nat) (bytes : List Byte) :
    littleEndian (bytes.take n) = ∑ k ∈ Finset.range n, (bytes.getD k 0#8).toNat * 2 ^ (8 * k) := by
  induction n generalizing bytes with
  | zero => rfl
  | succ n ih =>
    cases bytes with
    | nil => simp [littleEndian]
    | cons b rest =>
      rw [List.take_succ_cons, littleEndian, ih, Finset.sum_range_succ', Finset.mul_sum, Nat.add_comm]
      refine congrArg₂ (· + ·) (Finset.sum_congr rfl fun k _ => ?_) (by simp)
      rw [List.getD_cons_succ, Nat.mul_succ, pow_add]
      ring

theorem digestLanes_toNat (digest : List Byte) : (digestLanes digest).toNat = littleEndian (digest.take 8) := by
  have hlt := littleEndian_lt (digest.take 8)
  have hle : 2 ^ (8 * (digest.take 8).length) ≤ 2 ^ 64 :=
    Nat.pow_le_pow_right (by decide) (by have := List.length_take_le 8 digest; omega)
  exact (BitVec.toNat_ofNat _ _).trans (Nat.mod_eq_of_lt (hlt.trans_le hle))

theorem digestLanes_toNat_eq_sum (digest : List Byte) :
    (digestLanes digest).toNat = ∑ k ∈ Finset.range 8, (digest.getD k 0#8).toNat * 2 ^ (8 * k) :=
  (digestLanes_toNat digest).trans (littleEndian_take_eq_sum 8 digest)

/-- The length a request word shows for a digest (R37). -/
def shownLength (digest : List Byte) : BitVec 16 := BitVec.ofNat 16 (min digest.length Config.dlenMax)

theorem shownLength_toNat (digest : List Byte) : (shownLength digest).toNat = min digest.length 65535 :=
  (BitVec.toNat_ofNat _ _).trans (Nat.mod_eq_of_lt (by rw [Config.dlenMax]; omega))

/-- The adapter packs a digest into a well-formed operand: a short digest has no byte for the lanes it does not reach. -/
theorem wf_packed_digest (digest : List Byte) :
    (AdapterOperand.digest (shownLength digest) (digestLanes digest)).wf = true := by
  refine decide_eq_true (or_iff_not_imp_left.2 fun hshort => ?_)
  have hlt : ¬8 ≤ (shownLength digest).toNat := hshort
  have hlen : (digest.take 8).length = (shownLength digest).toNat := by
    rw [shownLength_toNat] at hlt ⊢
    rw [List.length_take]
    omega
  rw [digestLanes_toNat, ← hlen]
  exact littleEndian_lt _

theorem decode_packOutcome_ok (digest : List Byte) :
    decode (.h (packOutcome (.ok digest))) = .instr (.hash (.digest (shownLength digest) (digestLanes digest))) :=
  decodeOfEncodeGivesTheInstruction (.hash (.digest (shownLength digest) (digestLanes digest))) (wf_packed_digest digest)

theorem decode_packOutcome_fail (err : BitVec 32) :
    decode (.h (packOutcome (.fail err))) = .instr (.hash (.failed err)) :=
  decode_adapterWord_failed err 0#16 0#64

/-! ## The words of the assembler (R40) -/

/-- Settles O52: the assembler writes the encoder's words, and packs a digest as the adapter does. -/
theorem assembledFormsDecodeToTheirCommands : Obligations.AssembledFormsDecodeToTheirCommands :=
  ⟨fun arg => congrArg some (decodeOfEncodeGivesTheInstruction (.construct arg) rfl),
    fun h => congrArg some (decodeOfEncodeGivesTheInstruction (.add h) rfl), by decide,
    congrArg some (decodeOfEncodeGivesTheInstruction .count rfl),
    fun err => congrArg some (decode_packOutcome_fail err),
    fun digest => ⟨digestLanes digest, congrArg some (decode_packOutcome_ok digest), digestLanes_toNat_eq_sum digest⟩⟩

/-! ## One transaction, and `ADDH` (R31, R41) -/

theorem State.take_complete_received (s : State) (port : Port) (r : Result) :
    ((s.complete port r).take port).received = s.received ++ [(port, r.response)] := by
  have hresp := s.complete_resp_same port r
  rcases (s.complete port r).take_spec port with ⟨hnone, -⟩ | ⟨r', hsome, -, hreceived, -⟩
  · cases hnone.symm.trans hresp
  · cases hsome.symm.trans hresp
    rw [hreceived, State.complete_received]

theorem transact_eq (w : Request) (s : State) :
    transact w s = .next ((s.complete w.port (commandResult w s.sketch)).take w.port) := by
  rw [transact, serve_eq]

theorem adapt_of_short {digest : List Byte} (h : digest.length < 8) :
    adapt (.ok digest) = { status := .shortDigest, info := 0#8, value := BitVec.ofNat 64 digest.length } := if_pos h

theorem adapt_of_long {digest : List Byte} (h : 8 ≤ digest.length) :
    adapt (.ok digest) = { status := .ok, info := 0#8, value := digestLanes digest } := if_neg (Nat.not_lt.2 h)

theorem commandResult_of_hash {w : Request} {q : AdapterOperand} (h : decode w = .instr (.hash q))
    (before : Option Sketch) : commandResult w before = hashCommand q before := by
  rw [commandResult, h]

/-- The engine answers the packed outcome of the primitive as `adapt` says, and keeps the Sketch (R70). -/
theorem commandResult_packOutcome (outcome : Config.PrimResult) (before : Option Sketch) :
    commandResult (.h (packOutcome outcome)) before = { sketch := before, response := adapt outcome } := by
  cases outcome with
  | fail err => exact commandResult_of_hash (decode_packOutcome_fail err) before
  | ok digest =>
    rw [commandResult_of_hash (decode_packOutcome_ok digest)]
    have hlen := shownLength_toNat digest
    rcases Nat.lt_or_ge digest.length 8 with hshort | hlong
    · have hvalue : (shownLength digest).setWidth 64 = BitVec.ofNat 64 digest.length := by
        rw [← BitVec.ofNat_toNat, hlen, Nat.min_eq_left (by omega)]
      rw [hashCommand_of_short (by omega), adapt_of_short hshort, hvalue]
      rfl
    · rw [hashCommand_of_long (by omega), adapt_of_long hlong]
      rfl

/-- The state after the host has taken the answer to its `HASH` request. -/
def State.hashed (s : State) (outcome : Config.PrimResult) : State :=
  (s.complete .H { sketch := s.sketch, response := adapt outcome }).take .H

@[simp] theorem State.hashed_sketch (s : State) (outcome : Config.PrimResult) : (s.hashed outcome).sketch = s.sketch := by
  simp [State.hashed]

@[simp] theorem State.hashed_received (s : State) (outcome : Config.PrimResult) :
    (s.hashed outcome).received = s.received ++ [(.H, adapt outcome)] := s.take_complete_received .H _

/-- `ADDH` after its `HASH`: an `ADD` of the answer's value if the answer is `OK`, and nothing more otherwise. -/
theorem addh_eq (prim : Config.Prim) (data : List Byte) (s : State) :
    addh prim data s =
      if (adapt (prim data)).status = .ok then transact (encode (.add (adapt (prim data)).value)) (s.hashed (prim data))
      else .next (s.hashed (prim data)) := by
  have hhash : transact (hashRequest prim data) s = .next (s.hashed (prim data)) := by
    rw [transact_eq, hashRequest, commandResult_packOutcome]
    rfl
  have hlast : (s.hashed (prim data)).received.getLast? = some (.H, adapt (prim data)) := by
    rw [State.hashed_received, List.getLast?_concat]
  simp only [addh, hhash, hlast]

theorem commandResult_add (h : Word64) (before : Option Sketch) :
    commandResult (encode (.add h)) before = addCommand h before := by
  rw [commandResult, decodeOfEncodeGivesTheInstruction (.add h) rfl]

/-- Settles O51, from the answer to each outcome of the primitive. -/
theorem addhAddsOnlyWhatTheHashAnswered : Obligations.AddhAddsOnlyWhatTheHashAnswered := by
  intro prim data s
  refine ⟨fun digest hprim hlong sk hsk => ?_, fun err hprim => ?_, fun digest hprim hshort => ?_⟩
  · have hsk' : (s.hashed (.ok digest)).sketch = some sk := (s.hashed_sketch _).trans hsk
    have hadd : addh prim data s = transact (encode (.add (digestLanes digest))) (s.hashed (.ok digest)) := by
      rw [addh_eq, hprim, adapt_of_long hlong, if_pos rfl]
    rw [transact_eq, commandResult_add, hsk', addCommand_some] at hadd
    refine ⟨_, digestLanes digest, hadd, digestLanes_toNat_eq_sum digest, ?_, ?_⟩
    · rw [State.take_sketch, State.complete_sketch, respondOk_sketch]
    · refine (State.take_complete_received _ .S _).trans ?_
      rw [State.hashed_received, adapt_of_long hlong, List.append_assoc]
      rfl
  · refine ⟨s.hashed (.fail err), ?_, s.hashed_sketch _, s.hashed_received _⟩
    rw [addh_eq, hprim]
    rfl
  · refine ⟨s.hashed (.ok digest), ?_, s.hashed_sketch _, ?_⟩
    · rw [addh_eq, hprim, adapt_of_short hshort]
      rfl
    · rw [State.hashed_received, adapt_of_short hshort]

end Sys2Proof.Machine
end

section
/-!
SUPPORT. The proofs of the family `40_construct.md`: the array of a fresh Sketch, and `CONSTRUCT` inside and outside the
range of the precisions.
-/

namespace Sys2Proof.Machine

/-- A fresh Sketch's array, as the spec lays it out: `m` cells of 0 (R45). -/
theorem Sketch.registers_fresh (p : Nat) :
    (Sketch.fresh p).registers = List.replicate (2 ^ (Sketch.fresh p).p.toNat) 0#8 :=
  (List.map_const' ..).trans (congrArg (List.replicate · 0#8) List.length_range)

/-- Settles O20: whatever the state, the Sketch is the fresh one of the operand's precision. -/
theorem constructCreatesAZeroedSketch : Obligations.ConstructCreatesAZeroedSketch := by
  intro arg h7 h18
  have hp : (Sketch.fresh arg.toInt.toNat).p.toNat = arg.toInt.toNat := Sketch.fresh_precision (by omega)
  exact ⟨Sketch.fresh arg.toInt.toNat, by rw [hp, Int.toNat_of_nonneg (by omega)], Sketch.registers_fresh _,
    Sketch.wf_fresh (by omega) (by omega), exec_construct_valid h7 h18⟩

/-- A `CONSTRUCT` that raises an error sets the response of port S and writes nothing else (R48, R85). -/
theorem exec_construct_of_raise {arg : Word64} {s : State} {status : Status} {info : Byte} {value : Word64}
    (h : constructCommand arg s.sketch = raise s.sketch status info value) :
    exec (.construct arg) s = .next { s with respS := some { status := status, info := info, value := value } } :=
  congrArg (fun r => Host.Outcome.next (s.complete .S r)) h

/-- Settles O21: each bound's error, with the operand as presented. -/
theorem constructOutOfRangeChangesNothing : Obligations.ConstructOutOfRangeChangesNothing := fun _ s =>
  ⟨fun hlt => exec_construct_of_raise (constructCommand_of_lt hlt s.sketch),
    fun hgt => exec_construct_of_raise (constructCommand_of_gt hgt s.sketch)⟩

end Sys2Proof.Machine
end

section
/-!
SUPPORT. The proofs of the family `41_add.md`: how a hash value splits into bucket and remainder, the rank of a
remainder, and the registers after any sequence of `ADD`s.
-/

namespace Sys2Proof.Machine

/-! ## Bucket and remainder (R50, R51) -/

theorem testBit_bucketIndex (p : Nat) (h : Word64) (j : Nat) :
    (bucketIndex p h).testBit j = h.getLsbD (64 - p + j) :=
  BitVec.getLsbD_ushiftRight h (64 - p) j

theorem getLsbD_remainder (p : Nat) (h : Word64) (j : Nat) :
    (remainder p h).getLsbD j = (h.getLsbD j && decide (j < 64 - p)) := by
  rw [remainder, BitVec.getLsbD_and, getLsbD_remainderMask]

theorem remainder_lt (p : Nat) (h : Word64) : (remainder p h).toNat < 2 ^ (64 - p) := by
  rw [remainder_toNat]
  exact Nat.mod_lt _ (Nat.two_pow_pos _)

/-- The two parts together are all of the hash value. -/
theorem toNat_eq_bucketIndex_add_remainder (p : Nat) (h : Word64) :
    h.toNat = bucketIndex p h * 2 ^ (64 - p) + (remainder p h).toNat := by
  rw [bucketIndex_eq_div, remainder_toNat, Nat.div_add_mod']

/-- Settles O23: quotient and remainder by `2^(64 - p)`, and the bits of each. -/
theorem hashSplitsIntoBucketAndRemainder : Obligations.HashSplitsIntoBucketAndRemainder := fun p h _ h18 =>
  ⟨bucketIndex_lt (by omega) h, remainder_lt p h, toNat_eq_bucketIndex_add_remainder p h,
    fun j _ => testBit_bucketIndex p h j, getLsbD_remainder p h⟩

/-! ## The rank of a remainder (R52) -/

/-- The lowest set bit is the only bit that is set with every lower one clear, so it gives the rank. -/
theorem rho_eq_of_lowest_bit {w : Word64} {k : Nat} (hk : w.getLsbD k = true) (hlow : ∀ j < k, w.getLsbD j = false) :
    rho w = k + 1 := by
  have hw : w ≠ 0 := by
    rintro rfl
    simp at hk
  obtain ⟨-, hset, hclear⟩ := ctz_spec hw
  rw [rho_of_ne_zero hw]
  rcases lt_trichotomy (ctz w) k with hlt | heq | hgt
  · rw [hlow _ hlt] at hset
    cases hset
  · rw [heq]
  · rw [hclear _ hgt] at hk
    cases hk

theorem rho_two_pow {k : Nat} (hk : k < 64) : rho (BitVec.ofNat 64 (2 ^ k)) = k + 1 := by
  refine rho_eq_of_lowest_bit ?_ fun j hj => ?_
  · rw [BitVec.getLsbD_ofNat, Nat.testBit_two_pow_self, decide_eq_true hk, Bool.and_self]
  · rw [BitVec.getLsbD_ofNat, Nat.testBit_two_pow_of_ne (by omega), Bool.and_false]

/-- Settles O24: the scan finds the lowest set bit, and that bit determines the rank. -/
theorem rankIsTheLowestSetBitOrTheSentinel : Obligations.RankIsTheLowestSetBitOrTheSentinel := by
  intro p w _ _ hlt
  refine ⟨?_, fun hw => ?_, fun hodd => ?_, fun k hk => rho_two_pow (by omega)⟩
  · rintro rfl
    exact rho_zero
  · obtain ⟨-, hset, hclear⟩ := ctz_spec hw
    have hctz : rho w - 1 = ctz w := by rw [rho_of_ne_zero hw, Nat.add_sub_cancel]
    rw [hctz]
    exact ⟨(rho_bounds w).1, rho_le_of_lt hw hlt, hset, hclear⟩
  · exact rho_eq_of_lowest_bit hodd fun j hj => absurd hj j.not_lt_zero

/-! ## One `ADD` (R53) -/

theorem remainder_eq_ofNat (p : Nat) (h : Word64) : remainder p h = BitVec.ofNat 64 (h.toNat % 2 ^ (64 - p)) := by
  rw [← remainder_toNat, BitVec.ofNat_toNat, BitVec.setWidth_eq]

theorem Sketch.read_record_of_ne {sk : Sketch} {h : Word64} {i : Nat} (hi : i ≠ bucketIndex sk.precision h) :
    (sk.record h).read i = sk.read i :=
  BitVec.eq_of_toNat_eq ((sk.read_record h i).trans (if_neg hi))

/-- Settles O25: the Sketch with the hash value recorded, bucket and remainder written as quotient and remainder. -/
theorem addRaisesTheSelectedRegister : Obligations.AddRaisesTheSelectedRegister := by
  intro h s sk hs
  have hp : sk.p.toNat = sk.precision := rfl
  rw [hp, ← bucketIndex_eq_div, ← remainder_eq_ofNat]
  exact ⟨sk.record h, exec_add_of_sketch h hs, sk.record_p h, (sk.read_record h _).trans (if_pos rfl),
    fun i hi => Sketch.read_record_of_ne hi⟩

/-! ## The largest rank of a bucket (R56) -/

@[simp] theorem maxRank_nil (p i : Nat) : maxRank p [] i = 0 := rfl

theorem maxRank_cons_of_eq {p i : Nat} {h : Word64} (hi : bucketIndex p h = i) (rest : List Word64) :
    maxRank p (h :: rest) i = max (rankOf p h) (maxRank p rest i) := by
  rw [maxRank, List.filter_cons, if_pos (decide_eq_true hi)]
  rfl

theorem maxRank_cons_of_ne {p i : Nat} {h : Word64} (hi : bucketIndex p h ≠ i) (rest : List Word64) :
    maxRank p (h :: rest) i = maxRank p rest i := by
  rw [maxRank, List.filter_cons, if_neg (by simpa using hi)]
  rfl

/-- `maxRank` is the least bound of the ranks of the bucket. It is determined by the set of the hash values alone. -/
theorem maxRank_le_iff {p i n : Nat} {hashes : List Word64} :
    maxRank p hashes i ≤ n ↔ ∀ h ∈ hashes, bucketIndex p h = i → rankOf p h ≤ n := by
  induction hashes with
  | nil => simp
  | cons g rest ih =>
    rw [List.forall_mem_cons]
    by_cases hg : bucketIndex p g = i
    · rw [maxRank_cons_of_eq hg, max_le_iff, ih]
      simp only [hg, true_imp_iff]
    · rw [maxRank_cons_of_ne hg, ih]
      simp only [hg, false_imp_iff, true_and]

theorem maxRank_congr {hashes hashes' : List Word64} (hmem : ∀ h, h ∈ hashes ↔ h ∈ hashes') (p i : Nat) :
    maxRank p hashes i = maxRank p hashes' i :=
  eq_of_forall_ge_iff fun n => by simp only [maxRank_le_iff, hmem]

theorem maxRank_eq_zero_iff {p i : Nat} {hashes : List Word64} :
    maxRank p hashes i = 0 ↔ ∀ h ∈ hashes, bucketIndex p h ≠ i := by
  rw [← Nat.le_zero, maxRank_le_iff]
  refine forall₂_congr fun h _ => imp_congr_right fun _ => ?_
  have := (rankOf_bounds p h).1
  exact iff_false_intro (by omega)

/-- Only a zero remainder has the sentinel as its rank (R52): the other ranks are at most `64 - p`. -/
theorem rankOf_eq_sentinel_iff {p : Nat} (hp : 0 < p) (h : Word64) : rankOf p h = 64 ↔ remainder p h = 0 := by
  refine ⟨fun hrank => ?_, fun hzero => by rw [rankOf, hzero, rho_zero]⟩
  by_contra hne
  have : rankOf p h ≤ 64 - p := rho_le_of_lt hne (remainder_lt p h)
  omega

theorem maxRank_eq_sentinel_iff {p i : Nat} (hp : 0 < p) {hashes : List Word64} :
    maxRank p hashes i = 64 ↔ ∃ h ∈ hashes, bucketIndex p h = i ∧ remainder p h = 0 := by
  have hle : maxRank p hashes i ≤ 64 := maxRank_le_iff.2 fun h _ _ => (rankOf_bounds p h).2
  have hnot : maxRank p hashes i = 64 ↔ ¬maxRank p hashes i ≤ 63 := by omega
  rw [hnot, maxRank_le_iff]
  push Not
  refine exists_congr fun h => and_congr_right fun _ => and_congr_right fun _ => ?_
  have := (rankOf_bounds p h).2
  rw [← rankOf_eq_sentinel_iff hp]
  omega

/-! ## Any sequence of `ADD`s (R56, R57) -/

/-- Every register after a list of hash values: its old value or the largest rank of its bucket. -/
theorem Sketch.read_recordAll (sk : Sketch) (hashes : List Word64) (i : Nat) :
    ((sk.recordAll hashes).read i).toNat = max (sk.read i).toNat (maxRank sk.precision hashes i) := by
  induction hashes generalizing sk with
  | nil => exact (Nat.max_zero _).symm
  | cons h rest ih =>
    refine (ih (sk.record h)).trans ?_
    rw [read_record, record_precision]
    by_cases hi : bucketIndex sk.precision h = i
    · rw [if_pos hi.symm, maxRank_cons_of_eq hi, max_assoc]
    · rw [if_neg (Ne.symm hi), maxRank_cons_of_ne hi]

theorem Sketch.wf_recordAll {sk : Sketch} (hw : sk.wf = true) (hashes : List Word64) :
    (sk.recordAll hashes).wf = true := by
  induction hashes generalizing sk with
  | nil => exact hw
  | cons h rest ih => exact ih (Sketch.wf_record hw h)

/-- Good Sketches of one precision that read alike are equal data (log entry 2). -/
theorem Sketch.eq_of_read {a b : Sketch} (ha : a.wf = true) (hb : b.wf = true) (hp : a.p = b.p)
    (hread : ∀ i, a.read i = b.read i) : a = b := by
  obtain ⟨-, -, hax, -⟩ := (Sketch.wf_iff a).1 ha
  obtain ⟨-, -, hbx, -⟩ := (Sketch.wf_iff b).1 hb
  exact congrArg₂ Sketch.mk hp (Memory.eq_of_read hax hbx hread)

/-- The hash values recorded in a good Sketch count as a set. -/
theorem Sketch.recordAll_congr {sk : Sketch} (hw : sk.wf = true) {hashes hashes' : List Word64}
    (hmem : ∀ h, h ∈ hashes ↔ h ∈ hashes') : sk.recordAll hashes = sk.recordAll hashes' := by
  have hp : (sk.recordAll hashes).p = (sk.recordAll hashes').p :=
    (sk.growsTo_recordAll hashes).1.trans (sk.growsTo_recordAll hashes').1.symm
  refine Sketch.eq_of_read (wf_recordAll hw _) (wf_recordAll hw _) hp fun i => BitVec.eq_of_toNat_eq ?_
  rw [read_recordAll, read_recordAll, maxRank_congr hmem]

/-- A sequence of `ADD`s runs to its end from every state, and creates no Sketch (R82, R89). -/
theorem addAll_runs (hashes : List Word64) (s : State) :
    ∃ t, addAll hashes s = .next t ∧ (s.sketch = none → t.sketch = none) := by
  induction hashes generalizing s with
  | nil => exact ⟨s, rfl, id⟩
  | cons h rest ih =>
    obtain ⟨t, ht, hnone⟩ := ih (s.complete .S (addCommand h s.sketch))
    refine ⟨t, ht, fun hs => hnone ?_⟩
    rw [State.complete_sketch, hs, addCommand_none, raise_sketch]

/-- Settles O28: a fresh register reads 0, so what it ends at is the largest rank of its bucket. -/
theorem registerIsTheLargestRankOfItsBucket : Obligations.RegisterIsTheLargestRankOfItsBucket := by
  intro s q hashes _ h18 hs
  obtain ⟨t, hrun, -⟩ := addAll_runs hashes s
  refine ⟨t, (Sketch.fresh q).recordAll hashes, hrun, addAll_sketch hs hrun, fun i => ?_⟩
  rw [Sketch.read_recordAll, Sketch.fresh_precision h18, Sketch.fresh_read]
  exact Nat.zero_max _

/-- Settles O29: without a Sketch none is created, and a good Sketch depends on the set of the hash values alone. -/
theorem addOrderAndMultiplicityDoNotMatter : Obligations.AddOrderAndMultiplicityDoNotMatter := by
  intro s t t' hashes hashes' hwf hmem hrun hrun'
  cases hs : s.sketch with
  | none =>
    obtain ⟨u, hu, hnone⟩ := addAll_runs hashes s
    obtain ⟨u', hu', hnone'⟩ := addAll_runs hashes' s
    cases hu.symm.trans hrun
    cases hu'.symm.trans hrun'
    rw [hnone hs, hnone' hs]
  | some sk =>
    rw [addAll_sketch hs hrun, addAll_sketch hs hrun', Sketch.recordAll_congr ((State.wf_iff s).1 hwf sk hs) hmem]

/-- Settles O30: when the largest rank of a bucket is the sentinel, and when it is 0. -/
theorem registerTellsTheRanksItSaw : Obligations.RegisterTellsTheRanksItSaw := by
  intro s q hashes h7 h18 hs
  obtain ⟨t, sk, hrun, ht, hread⟩ := registerIsTheLargestRankOfItsBucket s q hashes h7 h18 hs
  refine ⟨t, sk, hrun, ht, fun i => ?_⟩
  rw [hread i]
  exact ⟨maxRank_eq_sentinel_iff (by omega), maxRank_eq_zero_iff⟩

end Sys2Proof.Machine
end

section
/-!
SUPPORT. The proofs of the family `42_count.md`: what `COUNT` answers and what it leaves alone, the denominator `Z` and
its integer form, and the estimate as the truncation of a rational.
-/

namespace Sys2Proof.Machine

/-! ## What `COUNT` answers (R66, R68, R69) -/

/-- `COUNT` sets the response of port S and writes nothing else. -/
theorem exec_count_eq (s : State) :
    exec .count s = .next { s with respS := some (countCommand s.sketch).response } := by
  show Host.Outcome.next { s with
    sketch := (countCommand s.sketch).sketch, respS := some (countCommand s.sketch).response } = _
  rw [countCommand_sketch]

theorem exec_count_of_sketch {s : State} {sk : Sketch} (hs : s.sketch = some sk) :
    exec .count s = .next { s with
      respS := some { status := .ok, info := countInfo sk.estimate, value := countValue sk.estimate } } := by
  rw [exec_count_eq, hs, countCommand_some]
  rfl

/-- Settles O36: the response is that of `countCommand`, which sees the Sketch only. -/
theorem countIsAPureRead : Obligations.CountIsAPureRead :=
  fun s t hst => ⟨_, exec_count_eq s, hst ▸ exec_count_eq t⟩

/-- `COUNT` of an estimate that does not fit a signed result. -/
theorem exec_count_of_saturates {s : State} {sk : Sketch} (hs : s.sketch = some sk) (h : 2 ^ 63 - 1 < sk.estimate) :
    exec .count s = .next { s with
      respS := some { status := .ok, info := 1#8, value := 0x7FFFFFFFFFFFFFFF#64 } } := by
  rw [exec_count_of_sketch hs, countInfo_of_gt h, countValue_of_gt h]

/-- The signed value of a `COUNT` response is the estimate, cut off at the largest signed result. -/
theorem toInt_countValue (n : Nat) : (countValue n).toInt = min (n : Int) (2 ^ 63 - 1) := by
  rcases Nat.lt_or_ge (2 ^ 63 - 1) n with h | h
  · rw [countValue_of_gt h, min_eq_right (by omega)]
    rfl
  · have hn : (BitVec.ofNat 64 n).toNat = n := by rw [BitVec.toNat_ofNat, Nat.mod_eq_of_lt (by omega)]
    rw [countValue_of_le h, min_eq_left (by omega), BitVec.toInt_eq_toNat_of_lt (by omega), hn]

/-! ## `Zint`, the sum over all registers (R61, R65) -/

theorem Sketch.m_pos (sk : Sketch) : 0 < sk.m := registerCount_pos _

theorem Sketch.m_le {sk : Sketch} (hw : sk.wf = true) : sk.m ≤ 2 ^ 18 := by
  obtain ⟨-, h18, -, -⟩ := (Sketch.wf_iff sk).1 hw
  exact Nat.pow_le_pow_right (by decide) h18

/-- `COUNT`'s sum over the listed registers of a good Sketch is the sum over all `m` of them. -/
theorem Sketch.zint_eq_sum {sk : Sketch} (hw : sk.wf = true) :
    zint sk.precision sk.x = ∑ i ∈ Finset.range sk.m, scaledTerm (sk.read i) := by
  obtain ⟨-, -, hx, hcells⟩ := (Sketch.wf_iff sk).1 hw
  exact zint_eq_zintOverAll hx fun c hc => (hcells c hc).1

theorem Sketch.zint_pos {sk : Sketch} (hw : sk.wf = true) : 0 < zint sk.precision sk.x := by
  rw [zint_eq_sum hw]
  exact Finset.sum_pos (fun i _ => scaledTerm_pos _) (Finset.nonempty_range_iff.2 sk.m_pos.ne')

theorem Sketch.zint_le {sk : Sketch} (hw : sk.wf = true) : zint sk.precision sk.x ≤ sk.m * 2 ^ 63 := by
  have h := Finset.sum_le_card_nsmul (Finset.range sk.m) _ _ fun i _ => scaledTerm_le (sk.read i)
  rwa [← zint_eq_sum hw, Finset.card_range, smul_eq_mul] at h

theorem Sketch.zint_lt {sk : Sketch} (hw : sk.wf = true) : zint sk.precision sk.x < 2 ^ 82 := by
  have hle := zint_le hw
  have hm := m_le hw
  omega

/-- The estimate in the closed form of R65, over all `m` registers. -/
theorem Sketch.estimate_eq {sk : Sketch} (hw : sk.wf = true) :
    sk.estimate = 7213 * sk.m ^ 3 * 2 ^ 63
      / (10 * (1000 * sk.m + 1079) * ∑ i ∈ Finset.range sk.m, scaledTerm (sk.read i)) := by
  rw [← zint_eq_sum hw]
  rfl

/-- Settles O31: whether the estimate fits decides between the two answers. -/
theorem countAnswersTheClosedForm : Obligations.CountAnswersTheClosedForm := by
  intro s sk hs hw m est
  have hest : sk.estimate = est := Sketch.estimate_eq hw
  rw [← hest]
  exact ⟨exec_count_of_fits hs, exec_count_of_saturates hs⟩

/-! ## The baseline (R66) -/

/-- The smaller the denominator, the larger the estimate. -/
theorem estimate_antitone {p : Nat} {x y : Memory} (hpos : 0 < zint p x) (hle : zint p x ≤ zint p y) :
    estimate p y ≤ estimate p x :=
  Nat.div_le_div_left (Nat.mul_le_mul_left _ hle)
    (Nat.mul_pos (Nat.mul_pos (by decide) (Nat.add_pos_right _ (by decide))) hpos)

/-- No good Sketch has a smaller estimate than one whose registers are all 0. -/
theorem Sketch.baseline_le_estimate {sk : Sketch} (hw : sk.wf = true) : baseline sk.m ≤ sk.estimate := by
  have hle : zint sk.precision sk.x ≤ zint sk.precision Memory.zeroed := by
    rw [zint_zeroed]
    exact zint_le hw
  have h := estimate_antitone (zint_pos hw) hle
  rwa [estimate_zeroed] at h

theorem baseline_bounds : ∀ p ∈ Finset.Icc 7 18, 91 ≤ baseline (2 ^ p) ∧ baseline (2 ^ p) ≤ 2 ^ 63 - 1 := by
  decide

/-- Settles O34: the baseline is at most the estimate and fits a signed result. -/
theorem countIsNeverBelowTheBaseline : Obligations.CountIsNeverBelowTheBaseline := by
  intro s sk hs hw
  obtain ⟨h7, h18, -, -⟩ := (Sketch.wf_iff sk).1 hw
  have hbase : baseline sk.m ≤ sk.estimate := Sketch.baseline_le_estimate hw
  obtain ⟨h91, hfit⟩ : 91 ≤ baseline sk.m ∧ baseline sk.m ≤ 2 ^ 63 - 1 :=
    baseline_bounds _ (Finset.mem_Icc.2 ⟨h7, h18⟩)
  have hinfo : countInfo sk.estimate = 0#8 ∨ countInfo sk.estimate = 1#8 ∧ 2 ^ 63 - 1 < sk.estimate := by
    rcases Nat.lt_or_ge (2 ^ 63 - 1) sk.estimate with h | h
    · exact .inr ⟨countInfo_of_gt h, h⟩
    · exact .inl (countInfo_of_le h)
  refine ⟨_, exec_count_of_sketch hs, rfl, ?_⟩
  rw [floor_alpha_mul sk.m_pos, toInt_countValue]
  refine ⟨?_, ?_, min_le_right _ _, hinfo.imp_right fun ⟨hi, hgt⟩ => ⟨hi, min_eq_right ?_⟩⟩ <;> omega

/-! ## The denominator as a rational (R60, R61) -/

/-- A register's term is the scaled one of the integer form. -/
theorem term_eq_scaledTerm_div (r : Byte) : term r = scaledTerm r / 2 ^ 63 := by
  rw [term, scaledTerm, Nat.cast_pow, Nat.cast_ofNat, pow_sub₀ _ two_ne_zero (by omega)]
  field_simp

theorem le_term {r : Byte} {n : Nat} (h : r.toNat % 64 ≤ n) : 1 / 2 ^ n ≤ term r :=
  one_div_pow_le_one_div_pow_of_le one_le_two h

theorem term_le_one (r : Byte) : term r ≤ 1 := div_le_one_of_le₀ (one_le_pow₀ one_le_two) (by positivity)

theorem term_eq_one_iff (r : Byte) : term r = 1 ↔ r.toNat % 64 = 0 := by
  rw [term, one_div, inv_eq_one, ← pow_zero (2 : ℚ), pow_right_inj₀ two_pos (by norm_num)]

/-- `mod 64` takes the sentinel to 0 and leaves the ranks alone. -/
theorem mod_of_legalRegister {p : Nat} (hp : 7 ≤ p) {r : Byte} (h : legalRegister p r = true) :
    r.toNat % 64 ≤ 64 - p ∧ (r.toNat % 64 = 0 ↔ r = 0#8 ∨ r = 64#8) := by
  have hr := (legalRegister_iff p r).1 h
  have h0 : r = 0#8 ↔ r.toNat = 0 := BitVec.toNat_inj.symm
  have h64 : r = 64#8 ↔ r.toNat = 64 := BitVec.toNat_inj.symm
  rw [h0, h64]
  omega

theorem Sketch.harmonicSum_eq_sum (sk : Sketch) :
    harmonicSum sk.precision sk.x = ∑ i ∈ Finset.range sk.m, term (sk.read i) := rfl

theorem Sketch.harmonicSum_eq_div {sk : Sketch} (hw : sk.wf = true) :
    harmonicSum sk.precision sk.x = zint sk.precision sk.x / 2 ^ 63 := by
  rw [zint_eq_sum hw, harmonicSum_eq_sum, Nat.cast_sum, Finset.sum_div]
  exact Finset.sum_congr rfl fun i _ => term_eq_scaledTerm_div _

theorem Sketch.harmonicSum_pos {sk : Sketch} (hw : sk.wf = true) : 0 < harmonicSum sk.precision sk.x := by
  rw [harmonicSum_eq_div hw]
  exact div_pos (Nat.cast_pos.2 (zint_pos hw)) (by positivity)

theorem Sketch.harmonicSum_le (sk : Sketch) : harmonicSum sk.precision sk.x ≤ sk.m := by
  have h := Finset.sum_le_card_nsmul (Finset.range sk.m) _ _ fun i _ => term_le_one (sk.read i)
  rwa [Finset.card_range, nsmul_one] at h

/-- `Z = m` exactly when every term is 1, which the ranks above 0 exclude. -/
theorem Sketch.harmonicSum_eq_m_iff {sk : Sketch} (hw : sk.wf = true) :
    harmonicSum sk.precision sk.x = sk.m ↔ ∀ i < sk.m, sk.read i = 0#8 ∨ sk.read i = 64#8 := by
  have hones : (sk.m : ℚ) = ∑ _i ∈ Finset.range sk.m, 1 := by simp
  obtain ⟨h7, -, -, -⟩ := (Sketch.wf_iff sk).1 hw
  rw [harmonicSum_eq_sum, hones, Finset.sum_eq_sum_iff_of_le fun i _ => term_le_one _]
  refine forall_congr' fun i => ?_
  rw [Finset.mem_range, term_eq_one_iff, (mod_of_legalRegister h7 (read_legal hw i)).2]

/-- Every term is at least `2^(p-64)`, and there are `2^p` of them. -/
theorem Sketch.le_harmonicSum {sk : Sketch} (hw : sk.wf = true) :
    2 ^ (2 * sk.precision) / 2 ^ 64 ≤ harmonicSum sk.precision sk.x := by
  obtain ⟨h7, h18, -, -⟩ := (Sketch.wf_iff sk).1 hw
  have h := Finset.card_nsmul_le_sum (Finset.range sk.m) _ _ fun i _ =>
    le_term (mod_of_legalRegister h7 (read_legal hw i)).1
  rw [Finset.card_range, nsmul_eq_mul, ← harmonicSum_eq_sum] at h
  refine le_trans (le_of_eq ?_) h
  rw [Sketch.m, registerCount_eq, Nat.cast_pow, Nat.cast_ofNat, pow_sub₀ _ two_ne_zero (by omega)]
  field_simp
  ring

/-- Settles O33: the scaled terms give the integer form, and the bounds of a term those of the sum. -/
theorem harmonicSumBounds : Obligations.HarmonicSumBounds := fun sk hw =>
  ⟨sk.harmonicSum_eq_sum, Sketch.zint_eq_sum hw, Sketch.harmonicSum_eq_div hw,
    fun i => ⟨le_term (by omega), term_le_one _⟩, Sketch.harmonicSum_pos hw, sk.harmonicSum_le,
    Sketch.harmonicSum_eq_m_iff hw, Sketch.le_harmonicSum hw, Sketch.zint_lt hw⟩

/-! ## The estimate as a truncated rational (R62, R63, R65) -/

/-- `alphaTerm / Z` over one denominator, the one of the closed integer form. -/
theorem Sketch.rawEstimate_eq_div {sk : Sketch} (hw : sk.wf = true) :
    rawEstimate sk.precision sk.x
      = ((7213 * sk.m ^ 3 * 2 ^ 63 : Nat) : ℚ) / ((10 * (1000 * sk.m + 1079) * zint sk.precision sk.x : Nat) : ℚ) := by
  have hm : (sk.m : ℚ) = 2 ^ sk.precision := by rw [Sketch.m, registerCount_eq, Nat.cast_pow, Nat.cast_ofNat]
  have hz : (zint sk.precision sk.x : ℚ) ≠ 0 := Nat.cast_ne_zero.2 (zint_pos hw).ne'
  rw [rawEstimate, alphaTerm_eq_div, harmonicSum_eq_div hw, ← hm]
  push_cast
  field_simp
  norm_num

theorem Sketch.rawEstimate_pos {sk : Sketch} (hw : sk.wf = true) : 0 < rawEstimate sk.precision sk.x := by
  have hz := zint_pos hw
  have hm := sk.m_pos
  rw [rawEstimate_eq_div hw]
  exact div_pos (Nat.cast_pos.2 (by positivity)) (Nat.cast_pos.2 (by positivity))

theorem Sketch.floor_rawEstimate {sk : Sketch} (hw : sk.wf = true) :
    ⌊rawEstimate sk.precision sk.x⌋ = (sk.estimate : Int) := by
  rw [rawEstimate_eq_div hw, Rat.floor_natCast_div_natCast]
  rfl

/-- Settles O32: the written-out rational is `rawEstimate`, and its floor is the estimate. -/
theorem countIsTheTruncatedRationalEstimate : Obligations.CountIsTheTruncatedRationalEstimate := by
  intro s sk hs hw m alphaOfM z raw
  obtain ⟨h7, h18, -, -⟩ := (Sketch.wf_iff sk).1 hw
  obtain ⟨-, -, -, -, -, -, -, -, halpha⟩ := derivedConstantsOfThePrecision _ h7 h18
  have hraw : rawEstimate sk.precision sk.x = raw := congrArg (· / z) halpha
  rw [← hraw, Sketch.floor_rawEstimate hw]
  refine ⟨Sketch.rawEstimate_pos hw, fun hfit => ⟨countValue sk.estimate, ?_, ?_⟩⟩
  · rw [toInt_countValue, min_eq_left hfit]
  · have hle : sk.estimate ≤ 2 ^ 63 - 1 := by omega
    rw [exec_count_of_sketch hs, countInfo_of_le hle]

/-! ## A register at the sentinel (R60) -/

/-- Writing a legal value to a register of a good Sketch keeps it good. -/
theorem Sketch.wf_write {sk : Sketch} (hw : sk.wf = true) {i : Nat} (hi : i < sk.m) {v : Byte}
    (hv : legalRegister sk.precision v = true) : ({ sk with x := sk.x.write i v } : Sketch).wf = true := by
  obtain ⟨h7, h18, hx, hcells⟩ := (Sketch.wf_iff sk).1 hw
  have hx' : (sk.x.write i v).wf = true := Memory.wf_write hx i v
  refine (Sketch.wf_iff _).2 ⟨h7, h18, hx', fun c hc => ?_⟩
  obtain ⟨hread, -, hne⟩ := Memory.read_of_mem hx' hc
  by_cases hci : c.1 = i
  · rw [hci, Memory.read_write_same hx] at hread
    exact ⟨hci ▸ hi, hread ▸ hv⟩
  · rw [Memory.read_write_other hx v hci] at hread
    have hold := Memory.mem_of_read (hread ▸ hne)
    rw [hread] at hold
    exact hcells _ hold

/-- The estimate of a good Sketch sees its registers through their terms only. -/
theorem Sketch.estimate_congr {a b : Sketch} (ha : a.wf = true) (hb : b.wf = true) (hp : a.p = b.p)
    (hterm : ∀ i, scaledTerm (a.read i) = scaledTerm (b.read i)) : a.estimate = b.estimate := by
  have hm : a.m = b.m := congrArg (fun p : BitVec 5 => registerCount p.toNat) hp
  rw [estimate_eq ha, estimate_eq hb, hm, Finset.sum_congr rfl fun i _ => hterm i]

theorem scaledTerm_read_write {x : Memory} (hx : x.wf = true) (i j : Nat) {v v' : Byte}
    (hterm : scaledTerm v = scaledTerm v') :
    scaledTerm ((x.write i v).read j) = scaledTerm ((x.write i v').read j) := by
  by_cases hj : j = i
  · rw [hj, Memory.read_write_same hx, Memory.read_write_same hx, hterm]
  · rw [Memory.read_write_other hx v hj, Memory.read_write_other hx v' hj]

/-- Settles O35: 64 and 0 have the same term, so the estimates agree. -/
theorem sentinelCountsAsUntouched : Obligations.SentinelCountsAsUntouched := by
  intro s sk i hw hi
  have h64 : legalRegister sk.precision 64#8 = true := (legalRegister_iff _ _).2 (.inr rfl)
  have h0 : legalRegister sk.precision 0#8 = true := (legalRegister_iff _ _).2 (.inl (Nat.zero_le _))
  obtain ⟨-, -, hx, -⟩ := (Sketch.wf_iff sk).1 hw
  have hest : ({ sk with x := sk.x.write i 64#8 } : Sketch).estimate
      = ({ sk with x := sk.x.write i 0#8 } : Sketch).estimate :=
    Sketch.estimate_congr (Sketch.wf_write hw hi h64) (Sketch.wf_write hw hi h0) rfl
      fun j => scaledTerm_read_write hx i j rfl
  refine ⟨_, exec_count_of_sketch rfl, ?_⟩
  rw [hest]
  exact exec_count_of_sketch rfl

end Sys2Proof.Machine
end

section
/-!
SUPPORT. The proofs of the family `43_hash_adapter.md`: the digest as a number, the answers of `HASH`, and its
independence of port S.
-/

namespace Sys2Proof.Machine

/-! ## The bytes of a word (R72) -/

/-- The low `n` bytes of a word are its remainder, written in base `2^8`. -/
theorem toNat_mod_eq_sum_bytes {w : Nat} (d : BitVec w) (n : Nat) :
    d.toNat % 2 ^ (8 * n) = ∑ k ∈ Finset.range n, (d.extractLsb' (8 * k) 8).toNat * 2 ^ (8 * k) := by
  induction n with
  | zero => exact Nat.mod_one _
  | succ n ih =>
    have hbyte : (d.extractLsb' (8 * n) 8).toNat = d.toNat / 2 ^ (8 * n) % 2 ^ 8 := by
      rw [BitVec.extractLsb'_toNat, Nat.shiftRight_eq_div_pow]
    rw [Finset.sum_range_succ, ← ih, hbyte, Nat.mul_succ, pow_add, Nat.mod_mul, Nat.mul_comm (2 ^ (8 * n))]

/-! ## The answers of `HASH` (R70, R74) -/

/-- A `HASH` that gives back the Sketch sets the response of port H and writes nothing else (R75). -/
theorem exec_hash_of_result {q : AdapterOperand} {s : State} {r : Response}
    (h : hashCommand q s.sketch = { sketch := s.sketch, response := r }) :
    exec (.hash q) s = .next { s with respH := some r } :=
  congrArg (fun result => Host.Outcome.next (s.complete .H result)) h

theorem exec_hash_of_long {dlen : BitVec 16} (h : 8 ≤ dlen.toNat) (d : Word64) (s : State) :
    exec (.hash (.digest dlen d)) s = .next { s with respH := some { status := .ok, info := 0#8, value := d } } :=
  exec_hash_of_result (hashCommand_of_long h d s.sketch)

/-- Settles O37: a word of eight bytes is the sum of its bytes, and `HASH` answers with the word. -/
theorem hashReadsTheDigestLittleEndian : Obligations.HashReadsTheDigestLittleEndian := fun s _ d hlong =>
  ⟨exec_hash_of_long hlong d s, (Nat.mod_eq_of_lt d.isLt).symm.trans (toNat_mod_eq_sum_bytes d 8)⟩

/-- Settles O38: one answer for each outcome of the command. -/
theorem hashFailuresPropagate : Obligations.HashFailuresPropagate :=
  ⟨fun s err => exec_hash_of_result (hashCommand_failed err s.sketch),
    fun s _ d hshort => exec_hash_of_result (hashCommand_of_short hshort d s.sketch),
    fun s _ d hlong => exec_hash_of_long hlong d s⟩

/-- The engine answers the request for `Hash(PRIM, data)` as `adapt` says, and writes nothing else (R70, R75). -/
theorem serve_hashRequest (prim : Config.Prim) (data : List Byte) (s : State) :
    serve (hashRequest prim data) s = .next { s with respH := some (adapt (prim data)) } := by
  rw [serve_eq, hashRequest, commandResult_packOutcome]
  rfl

/-- Settles O39: `adapt` of each outcome of the primitive, a long digest by its first eight bytes. -/
theorem hashAnswersForEveryPrimitive : Obligations.HashAnswersForEveryPrimitive := by
  intro prim data s
  rw [serve_hashRequest]
  refine ⟨fun err hprim => ?_, fun digest hprim hshort => ?_, fun digest hprim hlong => ?_⟩
  · rw [hprim]
    rfl
  · rw [hprim, adapt_of_short hshort]
  · refine ⟨digestLanes digest, digestLanes_toNat_eq_sum digest, ?_⟩
    rw [hprim, adapt_of_long hlong]

/-! ## `HASH` and port S (R75) -/

/-- The response of a `HASH` is fixed by its operand, whatever the Sketch. -/
theorem exists_hash_response (q : AdapterOperand) :
    ∃ r, ∀ s, exec (.hash q) s = .next { s with respH := some r } := by
  obtain ⟨hfailed, hshort, hlong⟩ := hashFailuresPropagate
  cases q with
  | failed err => exact ⟨_, fun s => hfailed s err⟩
  | digest dlen d =>
    rcases Nat.lt_or_ge dlen.toNat 8 with hlen | hlen
    · exact ⟨_, fun s => hshort s dlen d hlen⟩
    · exact ⟨_, fun s => hlong s dlen d hlen⟩

/-- A command of port S is a function of the Sketch, which it answers on its port. -/
theorem exists_portS_result {i : Instr} (h : i.port = .S) :
    ∃ f : Option Sketch → Result, ∀ s, exec i s = .next (s.complete .S (f s.sketch)) := by
  cases i with
  | construct arg => exact ⟨constructCommand arg, fun _ => rfl⟩
  | add hashValue => exact ⟨addCommand hashValue, fun _ => rfl⟩
  | count => exact ⟨countCommand, fun _ => rfl⟩
  | hash q => cases h

/-- Settles O40: `HASH` writes the response of port H only, which a command of port S neither reads nor writes. -/
theorem hashCommutesWithPortS : Obligations.HashCommutesWithPortS := by
  intro s q i hi
  obtain ⟨r, hhash⟩ := exists_hash_response q
  obtain ⟨f, hportS⟩ := exists_portS_result hi
  exact ⟨_, _, _, hhash s, hportS _, hportS s, hhash _⟩

end Sys2Proof.Machine
end

section
/-!
SUPPORT. The proofs of the family `60_exceptions.md`: which status answers which word, that an error writes nothing but
its response, and that every word and every step has an answer.
-/

namespace Sys2Proof.Machine

/-! ## The status of every answer (R80, R81, R84) -/

/-- The status that answers what a word decodes to, by the Sketch before it (R80, R81). -/
def answerStatus (x : Decoded) (before : Option Sketch) : Status :=
  match x with
  | .instr (.construct arg) => if arg.toInt < 7 ∨ 18 < arg.toInt then .rangeError else .ok
  | .instr (.add _) => if before = none then .notConstructed else .ok
  | .instr .count => if before = none then .notConstructed else .ok
  | .instr (.hash (.failed _)) => .primFailure
  | .instr (.hash (.digest dlen _)) => if dlen.toNat < 8 then .shortDigest else .ok
  | .illegal _ => .illegalCommand

/-- The result answers with the status, and gives back the Sketch before it unless the status is `OK` (R85). -/
def Result.Answers (r : Result) (status : Status) (before : Option Sketch) : Prop :=
  r.response.status = status ∧ (status ≠ .ok → r.sketch = before)

theorem raise_answers (before : Option Sketch) (status : Status) (info : Byte) (value : Word64) :
    (raise before status info value).Answers status before := ⟨rfl, fun _ => rfl⟩

theorem respondOk_answers (after before : Option Sketch) (info : Byte) (value : Word64) :
    (respondOk after info value).Answers .ok before := ⟨rfl, fun h => absurd rfl h⟩

theorem constructCommand_answers (arg : Word64) (before : Option Sketch) :
    (constructCommand arg before).Answers (answerStatus (.instr (.construct arg)) before) before := by
  simp only [answerStatus]
  split
  · next hout =>
    rcases hout with hlt | hgt
    · exact constructCommand_of_lt hlt before ▸ raise_answers ..
    · exact constructCommand_of_gt hgt before ▸ raise_answers ..
  · next hin =>
    rw [constructCommand_of_valid (by omega) (by omega)]
    exact respondOk_answers ..

theorem addCommand_answers (h : Word64) (before : Option Sketch) :
    (addCommand h before).Answers (answerStatus (.instr (.add h)) before) before := by
  cases before with
  | none => exact raise_answers ..
  | some sk => exact respondOk_answers ..

theorem countCommand_answers (before : Option Sketch) :
    (countCommand before).Answers (answerStatus (.instr .count) before) before := by
  cases before with
  | none => exact raise_answers ..
  | some sk => exact respondOk_answers ..

theorem hashCommand_answers (q : AdapterOperand) (before : Option Sketch) :
    (hashCommand q before).Answers (answerStatus (.instr (.hash q)) before) before := by
  cases q with
  | failed err => exact raise_answers ..
  | digest dlen d =>
    simp only [answerStatus]
    split
    · next hshort => exact hashCommand_of_short hshort d before ▸ raise_answers ..
    · next hlong => exact hashCommand_of_long (Nat.not_lt.1 hlong) d before ▸ respondOk_answers ..

/-- Every word is answered with the status of what it decodes to. -/
theorem commandResult_answers (w : Request) (before : Option Sketch) :
    (commandResult w before).Answers (answerStatus (decode w) before) before := by
  unfold commandResult
  rcases decode w with (arg | h | _ | q) | op
  · exact constructCommand_answers arg before
  · exact addCommand_answers h before
  · exact countCommand_answers before
  · exact hashCommand_answers q before
  · exact raise_answers ..

/-! ## An error writes nothing but its response (R85) -/

/-- The state and the response that serving a word leaves are those of `commandResult`. -/
theorem serve_next {w : Request} {s t : State} {r : Response} (hserve : serve w s = .next t)
    (hresp : t.resp w.port = some r) :
    t = s.complete w.port (commandResult w s.sketch) ∧ r = (commandResult w s.sketch).response := by
  cases (serve_eq w s).symm.trans hserve
  exact ⟨rfl, Option.some.inj (hresp.symm.trans (s.complete_resp_same ..))⟩

/-- A result that gives back the Sketch sets the response and writes nothing else. -/
theorem State.complete_of_sketch {s : State} {r : Result} (h : r.sketch = s.sketch) (port : Port) :
    s.complete port r = s.setResp port (some r.response) := by
  rw [State.complete, h]

/-- Settles O41: an answer that is not `OK` gives back the Sketch. -/
theorem errorsWriteNoState : Obligations.ErrorsWriteNoState := by
  intro w s t r hserve hresp hne
  obtain ⟨rfl, rfl⟩ := serve_next hserve hresp
  obtain ⟨hstatus, hsketch⟩ := commandResult_answers w s.sketch
  exact State.complete_of_sketch (hsketch (hstatus ▸ hne)) w.port

/-! ## The cause of each status (R81, R84, R89) -/

/-- Of the two branches only the first can be an error, so an error comes of the cause alone. -/
theorem ite_ok_eq_iff {cause : Prop} [Decidable cause] {raised status : Status} (h : status ≠ .ok) :
    (if cause then raised else .ok) = status ↔ cause ∧ raised = status := by
  by_cases hc : cause
  · rw [if_pos hc, and_iff_right hc]
  · rw [if_neg hc]
    exact iff_of_false h.symm fun hboth => hc hboth.1

/-- Settles O42: the status is that of what the word decodes to, and in each of its cases the causes of
the other statuses are those of other words. -/
theorem eachStatusHasItsCause : Obligations.EachStatusHasItsCause := by
  intro w s t r hserve hresp
  obtain ⟨-, rfl⟩ := serve_next hserve hresp
  rw [(commandResult_answers w s.sketch).1]
  rcases decode w with (arg | h | _ | err | ⟨dlen, d⟩) | op <;> simp [answerStatus, ite_ok_eq_iff, -ite_eq_left_iff]

/-- Settles O43: serving answers a next state with a response, whose status is that of what the word decodes to. -/
theorem commandsSucceedExactlyWhenTheyShould : Obligations.CommandsSucceedExactlyWhenTheyShould := by
  intro w s
  refine ⟨_, _, serve_eq w s, s.complete_resp_same .., ?_⟩
  rw [(commandResult_answers w s.sketch).1]
  rcases decode w with (arg | h | _ | err | ⟨dlen, d⟩) | op <;> simp [answerStatus]

/-! ## Every step answers a next state (R89) -/

theorem perform_answers (e : HostEvent) (s : State) : ∃ t, perform e s = .next t := by
  rcases perform_cases e s with ⟨w, -, h⟩ | ⟨port, -, h⟩ | ⟨-, h⟩ <;> exact ⟨_, h⟩

/-- Settles O44: a step waits or performs an event. -/
theorem everyStepAnswersANextState : Obligations.EveryStepAnswersANextState := by
  intro s
  rcases step_cases s with ⟨-, hwait⟩ | ⟨e, rest, -, hperf⟩
  · exact ⟨s, hwait⟩
  · obtain ⟨t, ht⟩ := perform_answers e { s with events := rest }
    exact ⟨t, hperf.trans ht⟩

/-! ## `ADD` and `COUNT` without a Sketch (R82) -/

theorem exec_add_of_no_sketch {s : State} (hs : s.sketch = none) (h : Word64) :
    exec (.add h) s = .next { s with respS := some { status := .notConstructed, info := 0x02#8, value := 0#64 } } := by
  have hadd : addCommand h s.sketch = raise s.sketch .notConstructed 0x02#8 0#64 := by rw [hs, addCommand_none]
  exact congrArg (fun r => Host.Outcome.next (s.complete .S r)) hadd

/-- Settles O26: both raise their error. -/
theorem addAndCountNeedASketch : Obligations.AddAndCountNeedASketch := by
  intro s hs
  refine ⟨exec_add_of_no_sketch hs, ?_⟩
  rw [exec_count_eq, hs, countCommand_none]
  rfl

end Sys2Proof.Machine
end

section
/-!
SUPPORT. The proofs of the family `70_reset_and_hazards.md`: what a word that waits leaves unchanged, the taking of a
response, reset, and what brings a Sketch into existence.
-/

namespace Sys2Proof.Machine

/-! ## No event reads the events still to come -/

theorem HostEvent.ready_with_events (s : State) (events : List HostEvent) (e : HostEvent) :
    e.ready { s with events := events } = e.ready s := by
  cases e <;> rfl

theorem firstReady_with_events (s : State) (events es : List HostEvent) :
    firstReady { s with events := events } es = firstReady s es := by
  induction es with
  | nil => rfl
  | cons e es ih => rw [firstReady, firstReady, HostEvent.ready_with_events, ih]

theorem State.complete_with_events (s : State) (events : List HostEvent) (port : Port) (r : Result) :
    { s with events := events }.complete port r = { s.complete port r with events := events } := by
  cases port <;> rfl

theorem State.take_with_events (s : State) (events : List HostEvent) (port : Port) :
    { s with events := events }.take port = { s.take port with events := events } := by
  cases port
  · rcases s with ⟨sketch, _ | r, respH, events, received⟩ <;> rfl
  · rcases s with ⟨sketch, respS, _ | r, events, received⟩ <;> rfl

/-- An event does the same whatever is still to come, and leaves what is still to come. -/
theorem perform_with_events {e : HostEvent} {s t : State} (h : perform e s = .next t) (events : List HostEvent) :
    perform e { s with events := events } = .next { t with events := events } ∧ t.events = s.events := by
  rcases perform_cases e s with ⟨w, rfl, hp⟩ | ⟨port, rfl, hp⟩ | ⟨rfl | ⟨w, rfl⟩, hp⟩ <;> cases hp.symm.trans h
  · exact ⟨(serve_eq w _).trans (congrArg _ (s.complete_with_events ..)), s.complete_events ..⟩
  · exact ⟨congrArg _ (s.take_with_events ..), s.take_events port⟩
  · exact ⟨rfl, rfl⟩
  · exact ⟨rfl, rfl⟩

/-! ## Words that wait (R97) -/

theorem ready_present_of_pending {s : State} {w : Request} (h : (s.resp w.port).isSome = true) :
    (HostEvent.present w).ready s = false := by
  rw [HostEvent.ready, State.free, Option.isNone_eq_false_iff, h]

/-- An event that waits stays first, and the step is the one without it. -/
theorem step_of_head_not_ready {s t : State} {e : HostEvent} {rest : List HostEvent} (hevents : s.events = e :: rest)
    (he : e.ready s = false) (hstep : step { s with events := rest } = .next t) :
    step s = .next { t with events := e :: t.events } := by
  have hfirst : firstReady s s.events = (firstReady s rest).map fun q => (q.1, e :: q.2) :=
    hevents ▸ firstReady_cons_of_not_ready he rest
  rw [step, firstReady_with_events] at hstep
  rw [step, hfirst]
  rcases hq : firstReady s rest with _ | ⟨e', rest'⟩ <;> rw [hq] at hstep
  · cases hstep
    exact congrArg (fun events => Host.Outcome.next { s with events := events }) hevents
  · obtain ⟨hperf, hrest⟩ := perform_with_events hstep (e :: rest')
    rw [hrest]
    exact hperf

/-- Settles O12: the word waits at its busy port. -/
theorem waitingWordIsPassedOver : Obligations.WaitingWordIsPassedOver := fun _ _ _ _ hevents hbusy hstep =>
  step_of_head_not_ready hevents (ready_present_of_pending hbusy) hstep

theorem firstReady_eq_none {s : State} {events : List HostEvent} (h : ∀ e ∈ events, e.ready s = false) :
    firstReady s events = none := by
  have hnil := firstReady_append_of_not_ready h []
  rwa [List.append_nil] at hnil

/-- Settles O11: every event is a word that waits, so the step waits. -/
theorem wordsWaitForTheirPort : Obligations.WordsWaitForTheirPort := by
  intro s hbusy
  have hnone : firstReady s s.events = none := firstReady_eq_none fun e he => by
    obtain ⟨w, rfl, hw⟩ := hbusy e he
    exact ready_present_of_pending hw
  rw [step, hnone]

/-! ## The first event, when it can happen -/

theorem step_of_head_ready {s : State} {e : HostEvent} {rest : List HostEvent} (hevents : s.events = e :: rest)
    (he : e.ready s = true) : step s = perform e { s with events := rest } :=
  step_eq_perform (before := []) hevents (List.forall_mem_nil _) he

/-- Settles O13: a take with a response pending can happen, and does what `State.take_spec` says. -/
theorem hostTakesTheResponse : Obligations.HostTakesTheResponse := by
  intro s rest port r hevents hr
  have hready : (HostEvent.take port).ready s = true := Option.isSome_of_eq_some hr
  refine ⟨_, step_of_head_ready hevents hready, ?_⟩
  have hr' : { s with events := rest }.resp port = some r := hr
  rcases { s with events := rest }.take_spec port with ⟨hnone, -⟩ | ⟨r', hsome, hfree, hreceived, hother⟩
  · cases hnone.symm.trans hr'
  · cases hsome.symm.trans hr'
    exact ⟨hfree, hreceived, State.take_sketch .., State.take_events .., hother⟩

/-- Settles O14: the reset event waits for nothing. -/
theorem resetEventClearsTheEngine : Obligations.ResetEventClearsTheEngine := fun _ _ hevents =>
  step_of_head_ready hevents rfl

/-- Settles O15: the word is accepted at its free port, and what happens is the reset event. -/
theorem resetAbandonsTheCommand : Obligations.ResetAbandonsTheCommand := by
  intro s rest w hfree
  have hready : (HostEvent.resetDuring w).ready { s with events := .resetDuring w :: rest } = true :=
    Option.isNone_iff_eq_none.2 hfree
  have habandon := step_of_head_ready rfl hready
  exact ⟨habandon, habandon.trans (resetEventClearsTheEngine { s with events := .reset :: rest } rest rfl).symm⟩

/-! ## What brings a Sketch into existence (R96) -/

theorem constructCommand_creates {arg : Word64} (h : (constructCommand arg none).sketch ≠ none) :
    7 ≤ arg.toInt ∧ arg.toInt ≤ 18 := by
  rcases lt_or_ge arg.toInt 7 with hlt | h7
  · rw [constructCommand_of_lt hlt] at h
    exact absurd rfl h
  rcases lt_or_ge 18 arg.toInt with hgt | h18
  · rw [constructCommand_of_gt hgt] at h
    exact absurd rfl h
  · exact ⟨h7, h18⟩

/-- The words that answer with a Sketch where there was none. -/
theorem commandResult_creates {w : Request} (h : (commandResult w none).sketch ≠ none) :
    ∃ arg, decode w = .instr (.construct arg) ∧ 7 ≤ arg.toInt ∧ arg.toInt ≤ 18 := by
  unfold commandResult at h
  generalize decode w = decoded at h ⊢
  rcases decoded with (arg | hashValue | _ | q) | op
  · exact ⟨arg, rfl, constructCommand_creates h⟩
  · exact absurd rfl h
  · exact absurd rfl h
  · exact absurd (hashCommand_sketch q none) h
  · exact absurd rfl h

/-- The events that leave a Sketch where there was none. -/
theorem perform_creates {e : HostEvent} {s t : State} (hs : s.sketch = none) (hp : perform e s = .next t)
    (ht : t.sketch ≠ none) :
    ∃ w arg, e = .present w ∧ decode w = .instr (.construct arg) ∧ 7 ≤ arg.toInt ∧ arg.toInt ≤ 18 := by
  rcases perform_cases e s with ⟨w, rfl, hq⟩ | ⟨port, -, hq⟩ | ⟨-, hq⟩ <;> cases hq.symm.trans hp
  · rw [State.complete_sketch, hs] at ht
    obtain ⟨arg, hconstruct⟩ := commandResult_creates ht
    exact ⟨w, arg, rfl, hconstruct⟩
  · exact absurd ((s.take_sketch port).trans hs) ht
  · exact absurd s.resetEvent_sketch ht

/-- Settles O18: a step waits or performs an event, and only a `CONSTRUCT` in range creates. -/
theorem onlyConstructCreatesASketch : Obligations.OnlyConstructCreatesASketch := by
  intro s t hs hstep ht
  rcases step_cases s with ⟨-, hwait⟩ | ⟨e, rest, hfirst, hperf⟩
  · cases hwait.symm.trans hstep
    exact absurd hs ht
  · obtain ⟨w, arg, rfl, hconstruct⟩ :=
      perform_creates (s := { s with events := rest }) hs (hperf.symm.trans hstep) ht
    exact ⟨w, rest, arg, hfirst, hconstruct⟩

end Sys2Proof.Machine
end
